-- ==== Sys2Proof/Word.lean ====
section
/-! DEFINITION. The value types of the block: words, bytes, code points and strings (00_scope.md R11, R12). -/

namespace Sys2Proof

/-- A word: 16 bits, unsigned (R11); the width of a shadow register and of an RDS block (R8). -/
abbrev Word := BitVec 16

/-- A byte, also a character code: 8 bits, unsigned (R11). -/
abbrev Byte := BitVec 8

/-- A Unicode code point (R12). -/
abbrev CodePoint := Nat

/-- A string: a finite sequence of Unicode code points; `[]` is the empty string (R12). -/
abbrev Str := List CodePoint

end Sys2Proof
end

