-- ==== Sys2Proof/Config.lean ====
section
/-! DEFINITION. The open parameters of 00_scope.md R9: what an instance fixes and no operation changes (R42). -/

namespace Sys2Proof

/-- Which of the two triggers fired the retune/seek reset (R92, R180). -/
inductive Cause where
  | retune  -- 0, from `set_frequency`
  | seek    -- 1, from `seek`
deriving DecidableEq, Repr

/-- Which of the two derived strings (the second argument of `PH`, R181). -/
inductive Line where
  | name
  | text
deriving DecidableEq, Repr

/-- The three texts a value of `PH` may be (R9, R181). -/
inductive Placeholder where
  | empty
  | scanning
  | seeking
deriving DecidableEq, Repr

/-- How the last code point of a placeholder is spelt: U+2026 as the document is extracted, or three full
stops; a parameter (93_implementation_defined.md U26, 91_not_in_source.md N8). -/
inductive Spelling where
  | ellipsis
  | threeStops
deriving DecidableEq, Repr

/-- `ROT_POL` (R9, R192): `highDec`, a high complementary pin decrements; `highInc`, the converse. -/
inductive Polarity where
  | highDec
  | highInc
deriving DecidableEq, Repr

/-- `STALE_POLICY` (R9, R152): what follows a failed read inside `RDS_PROCESS`. -/
inductive StalePolicy where
  | proceed
  | skip
deriving DecidableEq, Repr

/-- The parameters of an instance, after the check of R231 (`BAD_CONFIG`): the register binding is in range and
the values of `PH` are among the three admitted strings by their types; the rotary premises are `Config.WF`. -/
structure Config where
  /-- `REG_STATUS` -/
  regStatus : Fin 16
  /-- `REG_RDSB` -/
  regRdsb : Fin 16
  /-- `REG_RDSC` -/
  regRdsc : Fin 16
  /-- `REG_RDSD` -/
  regRdsd : Fin 16
  /-- `PH(RETUNE, NAME)` -/
  phRetuneName : Placeholder
  /-- `PH(RETUNE, TEXT)` -/
  phRetuneText : Placeholder
  /-- `PH(SEEK, NAME)` -/
  phSeekName : Placeholder
  /-- `PH(SEEK, TEXT)` -/
  phSeekText : Placeholder
  /-- the spelling of the placeholders (U26) -/
  spelling : Spelling
  /-- `ROT_MIN` -/
  rotMin : Int
  /-- `ROT_MAX` -/
  rotMax : Int
  /-- `ROT_STEP` -/
  rotStep : Int
  /-- `ROT_START` -/
  rotStart : Int
  /-- `ROT_POL` -/
  rotPol : Polarity
  /-- `T0`, milliseconds -/
  t0 : Nat
  /-- `STALE_POLICY` -/
  stalePolicy : StalePolicy
  /-- `BUS_ADDR`: no rule of the block reads it and it has no default (R9) -/
  busAddr : Option Nat
  /-- the bit drawn for `ROT_B` at reset (R37: "a model draws any bit") -/
  rotB0 : Bool
deriving DecidableEq, Repr

/-- The premises of 44_rotary.md R204 on the rotary parameters. -/
abbrev Config.WF (c : Config) : Prop :=
  c.rotMin ≤ c.rotMax ∧ c.rotMin ≤ c.rotStart ∧ c.rotStart ≤ c.rotMax ∧ 1 ≤ c.rotStep

/-- The defaults of R9. The register binding is R9's default from general knowledge (PRESUMED, log 10). R9 gives the
rotary range, step and start no default: 0 to 15 by 1 from 0 is a DESIGN CHOICE (log 8), unsafe for claims about
`State.reset` alone; so is the drawn bit of `ROT_B` (log 7). Claims over every state hold for every configuration. -/
def Config.standard : Config where
  regStatus := 0x0A
  regRdsb := 0x0D
  regRdsc := 0x0E
  regRdsd := 0x0F
  phRetuneName := .scanning
  phRetuneText := .empty
  phSeekName := .seeking
  phSeekText := .empty
  spelling := .ellipsis
  rotMin := 0
  rotMax := 15
  rotStep := 1
  rotStart := 0
  rotPol := .highDec
  t0 := 0
  stalePolicy := .proceed
  busAddr := none
  rotB0 := false

/-- A configuration as the host binds it, before the check of R231: register indices and strings of any value. -/
structure RawConfig where
  regStatus : Nat
  regRdsb : Nat
  regRdsc : Nat
  regRdsd : Nat
  phRetuneName : Str
  phRetuneText : Str
  phSeekName : Str
  phSeekText : Str
  spelling : Spelling
  rotMin : Int
  rotMax : Int
  rotStep : Int
  rotStart : Int
  rotPol : Polarity
  t0 : Nat
  stalePolicy : StalePolicy
  busAddr : Option Nat
  rotB0 : Bool
deriving DecidableEq, Repr

/-! ### Free values of the environment (read by `Machine/Environment.lean` alone, never by the block; log 22, log 29) -/

/-- Free value: whether `round` goes up at a tie `x` (R141: no tie-breaking rule may be assumed). -/
opaque Config.tieRoundsUp : Rat → Bool

/-- Free value: the argument, in MHz, the tick gives `set_frequency` for a current frequency in MHz and a delta
(R210: "how a delta is turned into a frequency or volume argument, is not given"). -/
opaque Config.frequencyArgument : Rat → Int → Rat

/-- Free value: the argument the tick gives `set_volume` for a current volume and a delta (R210). -/
opaque Config.volumeArgument : Nat → Int → Int

/-- Free value: the channel TunerState keeps when the one read back is above 205, outside the range R130 gives it. -/
opaque Config.channelOutOfRange : Nat → Fin 206

/-- Free value: what a seek direction is clamped to (R138: "How a seek direction is clamped is not given"). -/
opaque Config.clampSeekDirection : Int → Int

/-- Free value: the level of the seek-direction bit for a direction (N28: its encoding is not given). -/
opaque Config.seekDirectionBit : Int → Bool

/-- Free value: whether a press, at the first time, is ignored where R214's "within 300 ms" does not say after a toggle at the
second: exactly 300 ms after it, and at a time below it. -/
opaque Config.ignoredPress : Nat → Nat → Bool

/-- Free value: the scroll text of the render state for what `RDS_TEXT` returned (R216: "or text derived from it by the loop;
the source does not say"). -/
opaque Config.scrollText : Str → Str

end Sys2Proof
end

