-- ==== Sys2Proof/Syntax.lean ====
section
/-! DEFINITION. The fourteen operations (30_encoding.md R96), their operands (R92, R93), and the requests that carry them. -/

namespace Sys2Proof

/-- The transport's answer to one `read_block` (R92): `Fail`, or `Ok(w)`; the bytes are an oracle under no law (R72). -/
inductive BusAnswer where
  | fail
  | ok (w : List Byte)
deriving DecidableEq, Repr

/-- The transport's answer to one `write_block`. DEDUCED (log 13): R113 says what happens "if the transport reports
an error", so the answer is an operand as `bus` is; safe, it is free. -/
inductive WriteAnswer where
  | done
  | fail
deriving DecidableEq, Repr

/-- The operations of R96, one constructor per mnemonic of the operation table. -/
inductive Instr where
  /-- `SH_REFRESH bus` (R110) -/
  | shRefresh (bus : BusAnswer)
  /-- `SH_COMMIT lo, hi` (R113), with the transport's answer to the write -/
  | shCommit (lo hi : Nat) (ack : WriteAnswer)
  /-- `SH_GET reg` (R115) -/
  | shGet (reg : Nat)
  /-- `SH_SET reg, val` (R116) -/
  | shSet (reg val : Nat)
  /-- `RDS_PROCESS bus` (R150) -/
  | rdsProcess (bus : BusAnswer)
  /-- `RDS_RESET cause` (R180) -/
  | rdsReset (cause : Cause)
  /-- `RDS_NAME` (R183) -/
  | rdsName
  /-- `RDS_TEXT` (R184) -/
  | rdsText
  /-- `ROT_GET` (R195) -/
  | rotGet
  /-- `ROT_SET v` (R196) -/
  | rotSet (v : Int)
  /-- `ROT_EDGE now, b` (R190); `b = true` is high -/
  | rotEdge (now : Nat) (b : Bool)
  /-- `RDS_PS` (R156): the field `seg` of block B and block D -/
  | rdsPs (seg : BitVec 2) (d : Word)
  /-- `RDS_RT` (R159): the field `seg` of block B and blocks C and D -/
  | rdsRt (seg : BitVec 4) (c d : Word)
  /-- `RDS_IGN` (R162): the group type of block B -/
  | rdsIgn (gt : BitVec 5)
deriving DecidableEq, Repr

/-- The group operation a block B selects (R94), with its operands. -/
inductive Group where
  | ps (seg : BitVec 2) (d : Word)
  | rt (seg : BitVec 4) (c d : Word)
  | ign (gt : BitVec 5)
deriving DecidableEq, Repr

/-- The port a request comes in at: the main loop's command port (R91) or the interrupt port (R93). -/
inductive Port where
  | command
  | interrupt
deriving DecidableEq, Repr

/-- One request of the host, as bytes on a port. R91 fixes the command code and R92, R93 the operands; how operands lie in
bytes is the model's presentation (DESIGN CHOICE, log 3; safe). -/
structure Request where
  port : Port
  bytes : List Byte
deriving DecidableEq, Repr

/-- What an operation is encoded as: a request on a port, or the three blocks of an RDS group (R102). -/
inductive Encoded where
  | request (r : Request)
  | blocks (b c d : Word)
deriving DecidableEq, Repr

/-- Why a request is no operation: a code that selects nothing (R95), or bytes that are not that operation's operands (log 3). -/
inductive Reject where
  | badCommand
  | badOperandBytes
deriving DecidableEq, Repr

end Sys2Proof
end

