-- ==== Sys2Proof/WellFormed.lean ====
section
/-! DEFINITION. Which operations have operands of the widths 30_encoding.md R92 and R94 give them. -/

namespace Sys2Proof

/-- A successful read burst has exactly 32 bytes (R52, R81). -/
def BusAnswer.wf : BusAnswer → Bool
  | .fail => true
  | .ok w => w.length == 32

/-- The operands fit their fields: register indices 4 bits, `val` 16 bits, a burst 32 bytes (R92), and an ignored group's
type is neither 0 nor 4 (R162). `v` and `now` are integers of no given width (R92, R93). -/
def Instr.wf : Instr → Bool
  | .shRefresh bus => bus.wf
  | .shCommit lo hi _ => decide (lo ≤ 0x0F) && decide (hi ≤ 0x0F)
  | .shGet reg => decide (reg ≤ 0x0F)
  | .shSet reg val => decide (reg ≤ 0x0F) && decide (val ≤ 0xFFFF)
  | .rdsProcess bus => bus.wf
  | .rdsReset _ => true
  | .rdsName => true
  | .rdsText => true
  | .rotGet => true
  | .rotSet _ => true
  | .rotEdge _ _ => true
  | .rdsPs _ _ => true
  | .rdsRt _ _ _ => true
  | .rdsIgn gt => gt != 0 && gt != 4

end Sys2Proof
end

