-- ==== Sys2Proof/Decode.lean ====
section
/-! DEFINITION. The decoder of requests and of RDS block B (30_encoding.md R91 to R95, R102), and the encoder. -/

namespace Sys2Proof

/-! ### Bytes, words and numbers -/

/-- `w[15:8]` (R11). -/
def hiByte (w : Word) : Byte := w.extractLsb' 8 8

/-- `w[7:0]` (R11). -/
def loByte (w : Word) : Byte := w.extractLsb' 0 8

/-- `h ‖ l`, the first operand in the high position (R11, R55). -/
def wordOf (h l : Byte) : Word := h ++ l

/-- The natural number a sequence of bytes spells, most significant byte first (the byte order of R55; log 3). -/
def natOfBytes (bs : List Byte) : Nat := bs.foldl (fun n b => n * 256 + b.toNat) 0

/-- The bytes of `n`, most significant first; `fuel` bounds their number. -/
def bytesOfNatAux : Nat → Nat → List Byte
  | 0, _ => []
  | fuel + 1, n => if n = 0 then [] else bytesOfNatAux fuel (n / 256) ++ [BitVec.ofNat 8 n]

/-- The bytes of `n` without leading zero bytes, most significant first; no byte for 0. -/
def bytesOfNat (n : Nat) : List Byte := bytesOfNatAux n n

/-! ### Operands of a request (the byte layout is log 3's) -/

/-- A one-bit operand: the byte 0 or 1. -/
def bitOf (b : Byte) : Option Bool :=
  if b = 0 then some false else if b = 1 then some true else none

/-- The byte of a one-bit operand. -/
def byteOfBit (b : Bool) : Byte := if b then 1 else 0

/-- `bus` (R92): a status byte, 0 for `Ok(w)` followed by the bytes of `w` in wire order, 1 for `Fail`. -/
def decodeBus : List Byte → Option BusAnswer
  | [] => none
  | st :: w => if st = 0 then some (.ok w) else if st = 1 ∧ w = [] then some .fail else none

/-- `lo`, `hi` and the write's status byte, 0 for done and 1 for failed (R92, R113). -/
def decodeCommit : List Byte → Option Instr
  | [lo, hi, st] =>
    (bitOf st).map fun f => .shCommit lo.toNat hi.toNat (if f then .fail else .done)
  | _ => none

/-- `reg` (R92). -/
def decodeGet : List Byte → Option Instr
  | [reg] => some (.shGet reg.toNat)
  | _ => none

/-- `reg`, then `val` (R92). -/
def decodeSet : List Byte → Option Instr
  | reg :: val => some (.shSet reg.toNat (natOfBytes val))
  | [] => none

/-- `cause`: 0 = `RETUNE`, 1 = `SEEK` (R92). -/
def decodeReset : List Byte → Option Instr
  | [c] => (bitOf c).map fun k => .rdsReset (if k then .seek else .retune)
  | _ => none

/-- No operands. -/
def decodePlain (i : Instr) : List Byte → Option Instr
  | [] => some i
  | _ :: _ => none

/-- `v` (R92): a sign byte, 1 for negative, then the magnitude. -/
def decodeRotSet : List Byte → Option Instr
  | sg :: m => (bitOf sg).map fun neg =>
      .rotSet (if neg then -(natOfBytes m : Int) else (natOfBytes m : Int))
  | [] => none

/-- `b`, then `now` (R93). -/
def decodeEdge : List Byte → Option Instr
  | b :: now => (bitOf b).map fun lvl => .rotEdge (natOfBytes now) lvl
  | [] => none

/-! ### Requests -/

/-- An operation whose operands were read, or the refusal of its operand bytes. -/
def operandsOr (o : Option Instr) : Except Reject Instr :=
  match o with
  | some i => .ok i
  | none => .error .badOperandBytes

/-- The command port (R91, R95): the first byte is the 4-bit code, zero-extended; 0x0 to 0x9 select the ten commands and
every other value selects nothing. -/
def decodeCommand : List Byte → Except Reject Instr
  | [] => .error .badCommand
  | cmd :: ops =>
    match cmd.toNat with
    | 0x0 => operandsOr ((decodeBus ops).map .shRefresh)
    | 0x1 => operandsOr (decodeCommit ops)
    | 0x2 => operandsOr (decodeGet ops)
    | 0x3 => operandsOr (decodeSet ops)
    | 0x4 => operandsOr ((decodeBus ops).map .rdsProcess)
    | 0x5 => operandsOr (decodeReset ops)
    | 0x6 => operandsOr (decodePlain .rdsName ops)
    | 0x7 => operandsOr (decodePlain .rdsText ops)
    | 0x8 => operandsOr (decodePlain .rotGet ops)
    | 0x9 => operandsOr (decodeRotSet ops)
    | _ => .error .badCommand

/-- A request on either port; the interrupt port has no code, every event on it is `ROT_EDGE` (R93). -/
def decode (r : Request) : Except Reject Instr :=
  match r.port with
  | .command => decodeCommand r.bytes
  | .interrupt => operandsOr (decodeEdge r.bytes)

/-! ### RDS block B -/

/-- `gt = B[15:11]` (R90, R155). -/
def groupType (b : Word) : BitVec 5 := b.extractLsb' 11 5

/-- The group operation block B selects, with its operands (R94): formats B0 (R84), B4 (R85), CH (R86). Total. -/
def decodeGroup (b c d : Word) : Group :=
  if groupType b = 0 then .ps (b.extractLsb' 0 2) d
  else if groupType b = 4 then .rt (b.extractLsb' 0 4) c d
  else .ign (groupType b)

/-- The operation a group is. -/
def Group.toInstr : Group → Instr
  | .ps seg d => .rdsPs seg d
  | .rt seg c d => .rdsRt seg c d
  | .ign gt => .rdsIgn gt

/-- Decoding of either encoded object (R102). -/
def decodeEncoded : Encoded → Except Reject Instr
  | .request r => decode r
  | .blocks b c d => .ok (decodeGroup b c d).toInstr

/-! ### The opcode table's words -/

/-- The operand bytes of an operation whose operand bits are all 0: a burst of 32 zero bytes after its status byte, and one
byte for each index, bit or sign. -/
def zeroOperands (cmd : Byte) : List Byte :=
  match cmd.toNat with
  | 0x0 => List.replicate 33 0
  | 0x1 => [0, 0, 0]
  | 0x2 => [0]
  | 0x3 => [0, 0, 0]
  | 0x4 => List.replicate 33 0
  | 0x5 => [0]
  | 0x9 => [0]
  | _ => []

/-- The request of a table row on a port: no bits is the interrupt row (mask 0x0, R103), up to 8 bits a command code. -/
def tableRequest (nbits w : Nat) : Request :=
  if nbits = 0 then ⟨.interrupt, [0]⟩
  else ⟨.command, BitVec.ofNat 8 w :: zeroOperands (BitVec.ofNat 8 w)⟩

/-- What the decoder reads for a row of the operation table: rows of more than 8 bits are block B (R103), with blocks C
and D all zeros; the others are requests. -/
def decodeTableWord (nbits w : Nat) : Option Instr :=
  if 8 < nbits then some (decodeGroup (BitVec.ofNat 16 w) 0 0).toInstr
  else (decode (tableRequest nbits w)).toOption

/-! ### The encoder -/

/-- The bytes of `bus` (R92). -/
def encodeBus : BusAnswer → List Byte
  | .ok w => 0 :: w
  | .fail => [1]

/-- Block B of a group: `gt` in bits 15:11, the ignored bits 0, `seg` at the bottom (R84, R85). -/
def blockB (gt : BitVec 5) (seg : BitVec 4) : Word := gt ++ (0 : BitVec 7) ++ seg

/-- The words of an operation, from the tables of R91, R92, R93, R84 and R85; ignored bits are 0. -/
def encode : Instr → Encoded
  | .shRefresh bus => .request ⟨.command, 0x0 :: encodeBus bus⟩
  | .shCommit lo hi ack =>
    .request ⟨.command, [0x1, BitVec.ofNat 8 lo, BitVec.ofNat 8 hi, byteOfBit (ack == .fail)]⟩
  | .shGet reg => .request ⟨.command, [0x2, BitVec.ofNat 8 reg]⟩
  | .shSet reg val =>
    .request ⟨.command,
      [0x3, BitVec.ofNat 8 reg, hiByte (BitVec.ofNat 16 val), loByte (BitVec.ofNat 16 val)]⟩
  | .rdsProcess bus => .request ⟨.command, 0x4 :: encodeBus bus⟩
  | .rdsReset cause => .request ⟨.command, [0x5, byteOfBit (cause == .seek)]⟩
  | .rdsName => .request ⟨.command, [0x6]⟩
  | .rdsText => .request ⟨.command, [0x7]⟩
  | .rotGet => .request ⟨.command, [0x8]⟩
  | .rotSet v => .request ⟨.command, 0x9 :: byteOfBit (decide (v < 0)) :: bytesOfNat v.natAbs⟩
  | .rotEdge now b => .request ⟨.interrupt, byteOfBit b :: bytesOfNat now⟩
  | .rdsPs seg d => .blocks (blockB 0 (seg.setWidth 4)) 0 d
  | .rdsRt seg c d => .blocks (blockB 4 seg) c d
  | .rdsIgn gt => .blocks (blockB gt 0) 0 0

end Sys2Proof
end

