-- ==== Sys2Proof/Machine/State.lean ====
section
/-! DEFINITION. The state: the eight cells of 10_state.md R20, the instance's parameters, the host's tape, the latest output. -/

namespace Sys2Proof.Machine

/-- The reasons a step can stop the machine: none. R225: "Nothing traps"; R166 and R240 say it of the decoder tick
and of the handler. The type is empty, so no step faults (log 24). -/
inductive Fault where
deriving DecidableEq, Repr

/-- The refusals of 60_exceptions.md R231: operands to which the spec gives no meaning, so the model has no step. All are
safe: a claim about a run that holds one cannot be proved. -/
inductive Refusal where
  /-- An instruction of the table without a meaning: raised by an arm of `exec` alone (none does); safe. -/
  | notModelled (mnemonic : String)
  /-- `BAD_COMMAND`: a command code 0xA to 0xF, raised by `step` (R95); safe. -/
  | badCommand
  /-- A request whose bytes are not the operands of its operation: the model's own, raised by `step` (log 3); safe. -/
  | badOperandBytes
  /-- `BAD_REGISTER`: an index above 0x0F, raised by `SH_GET` and `SH_SET` (R115, R116); safe. -/
  | badRegister
  /-- `BAD_WORD`: a value above 0xFFFF, raised by `SH_SET` (R116); safe. -/
  | badWord
  /-- `BAD_COMMIT_RANGE`: a range other than (0x02, 0x07), raised by `SH_COMMIT` (R114); safe. -/
  | badCommitRange
  /-- `BAD_BURST_LENGTH`: a successful read of other than 32 bytes, raised by `SH_REFRESH` and `RDS_PROCESS` (R112); safe. -/
  | badBurstLength
  /-- `ROT_SET_RANGE`: a value outside `[ROT_MIN, ROT_MAX]`, raised by `ROT_SET` (R197); safe. -/
  | rotSetRange
  /-- `BAD_CONFIG`: a configuration that breaks a premise, raised by `powerOn` (R204, R231); safe. -/
  | badConfig
  /-- The host's breach of its duty towards `ROT_EDGE` (R218, U17): a `now` below the previous one or below `ROT_T`, raised by
  `Env.act` alone; `exec` itself discards such an edge (R199; log 15); safe. -/
  | clockBackwards
deriving DecidableEq, Repr

/-- The events of R226. An event changes no cell (R232). -/
inductive Event where
  /-- E1: `SH_REFRESH`, `RDS_PROCESS`, on a failed read -/
  | transportReadFail
  /-- E2: `SH_COMMIT`, when the transport reports an error on the write -/
  | transportWriteFail
  /-- E3: `RDS_IGN`; carries the group type -/
  | groupIgnored (gt : BitVec 5)
  /-- E4: `RDS_PS`, `RDS_RT`, for each character byte outside 32 to 126 -/
  | charDropped
  /-- E5: `ROT_EDGE`, on a discarded edge -/
  | edgeDiscarded
  /-- E6: environment only (`set_frequency`, `set_volume`, `seek`) -/
  | inputClamped
  /-- E7: environment only (`seek`) -/
  | seekNoResponse
deriving DecidableEq, Repr

/-- What an operation returns (R92). -/
inductive Value where
  | word (w : Word)
  | str (s : Str)
  | int (v : Int)
deriving DecidableEq, Repr

/-- What one operation gives the outside: the returned value, the bytes of an emitted `BusWrite`, the events in order. -/
structure Output where
  result : Option Value := none
  busWrite : Option (List Byte) := none
  events : List Event := []
deriving DecidableEq, Repr

/-- The machine. The first eight fields are the cells of R20; the last three are the model's own (log 1). -/
structure State where
  /-- `SH`, the register shadow (R21) -/
  sh : Vector Word 16
  /-- `PS`, the station-name buffer (R28) -/
  ps : Vector Byte 8
  /-- `RT`, the radio-text buffer (R29) -/
  rt : Vector Byte 64
  /-- `PS_STR` (R31) -/
  psStr : Str
  /-- `RT_STR` (R32) -/
  rtStr : Str
  /-- `ROT_VAL` (R35) -/
  rotVal : Int
  /-- `ROT_T`, milliseconds (R36) -/
  rotT : Nat
  /-- `ROT_B`; `true` is high (R37) -/
  rotB : Bool
  /-- the instance's parameters, fixed for its life (R42) -/
  cfg : Config
  /-- the requests the host will issue, next first, in their one total order (R66; log 2) -/
  inputs : List Request
  /-- what the latest operation gave the outside (R15; log 18) -/
  out : Output
deriving DecidableEq, Repr

/-- The cells at reset of an instance with parameters `c` (R260). A reset state only if `c` keeps the premises of R204: an
instance and its runs begin with `powerOn`, which checks them (R231; D26, log 28). -/
def State.ofConfig (c : Config) : State where
  sh := Vector.replicate 16 0
  ps := Vector.replicate 8 0x20
  rt := Vector.replicate 64 0x20
  psStr := []
  rtStr := []
  rotVal := c.rotStart
  rotT := c.t0
  rotB := c.rotB0
  cfg := c
  inputs := []
  out := {}

/-- The machine right after reset, under the defaults of R9 (R41, R260). Nothing is on the host's tape: operations come
from outside (log 2). -/
def State.reset : State := State.ofConfig Config.standard

end Sys2Proof.Machine
end

