-- ==== Sys2Proof/Machine/Operands.lean ====
section
/-! DEFINITION. Operand forms: bursts, register indices, buffer indices, strings and placeholders. -/

namespace Sys2Proof.Machine

/-- A register index operand: 0 to 0x0F, nothing else (R51). -/
def regIndex? (reg : Nat) : Option (Fin 16) :=
  if h : reg < 16 then some ⟨reg, h⟩ else none

/-! ### Bursts -/

/-- Wire word `k` of a read burst: `w[2k] ‖ w[2k+1]` (R52, R55). -/
def wireWord (w : List Byte) (k : Nat) : Word := wordOf (w.getD (2 * k) 0) (w.getD (2 * k + 1) 0)

/-- The wire word that is logical register `r`: `(r + 6) mod 16` (R64). -/
def wireOfLogical (r : Nat) : Nat := (r + 6) % 16

/-- The logical register that is wire word `k`: `(0x0A + k) mod 16` (R64). -/
def logicalOfWire (k : Nat) : Nat := (0x0A + k) % 16

/-- The sixteen words a read burst carries, by logical register (R64, R81). -/
def burstWords (w : List Byte) : Vector Word 16 :=
  Vector.ofFn fun r : Fin 16 => wireWord w (wireOfLogical r.val)

/-- The read burst that carries the words `sh`, in wire order (R64, R81). -/
def burstBytes (sh : Vector Word 16) : List Byte :=
  (List.range 16).flatMap fun k =>
    [hiByte (sh.toList.getD (logicalOfWire k) 0), loByte (sh.toList.getD (logicalOfWire k) 0)]

/-- The write burst: registers 0x02 to 0x07, ascending, high byte first (R53, R82). -/
def commitBytes (sh : Vector Word 16) : List Byte :=
  [hiByte sh[2], loByte sh[2], hiByte sh[3], loByte sh[3], hiByte sh[4], loByte sh[4],
   hiByte sh[5], loByte sh[5], hiByte sh[6], loByte sh[6], hiByte sh[7], loByte sh[7]]

/-! ### Buffer indices and characters -/

/-- The station-name index `zext(seg) * 2` (R87). -/
def psIndex (seg : BitVec 2) : Nat := seg.toNat * 2

/-- The radio-text index `zext(seg) * 4` (R88). -/
def rtIndex (seg : BitVec 4) : Nat := seg.toNat * 4

/-- The two characters of a word, the high byte first (R56, R86). -/
def charPair (w : Word) : List Byte := [hiByte w, loByte w]

/-- The characters of a station-name group: those of block D (R156). -/
def psChars (d : Word) : List Byte := charPair d

/-- The characters of a radio-text group: those of block C, then those of block D (R159). -/
def rtChars (c d : Word) : List Byte := charPair c ++ charPair d

/-! ### Strings -/

/-- `join(A)` (R12): the string whose k-th code point is the character code `A[k]`. -/
def join {n : Nat} (buf : Vector Byte n) : Str := buf.toList.map BitVec.toNat

/-- `strip(s)` (R12): `s` without its leading and its trailing code points 0x20. -/
def strip (s : Str) : Str :=
  ((s.dropWhile (· == 0x20)).reverse.dropWhile (· == 0x20)).reverse

/-- The code points that end a placeholder (U26, N8). -/
def spellingText : Spelling → Str
  | .ellipsis => [0x2026]
  | .threeStops => [0x2E, 0x2E, 0x2E]

/-- The text of a placeholder (R181): `""`, "Scanning…" or "Seeking…". -/
def placeholderText (sp : Spelling) : Placeholder → Str
  | .empty => []
  | .scanning => [0x53, 0x63, 0x61, 0x6E, 0x6E, 0x69, 0x6E, 0x67] ++ spellingText sp
  | .seeking => [0x53, 0x65, 0x65, 0x6B, 0x69, 0x6E, 0x67] ++ spellingText sp

/-- `PH(cause, line)` as one of the three texts (R181). -/
def phChoice (c : Config) : Cause → Line → Placeholder
  | .retune, .name => c.phRetuneName
  | .retune, .text => c.phRetuneText
  | .seek, .name => c.phSeekName
  | .seek, .text => c.phSeekText

/-- `PH(cause, line)` (R181). -/
def ph (c : Config) (cause : Cause) (line : Line) : Str :=
  placeholderText c.spelling (phChoice c cause line)

/-- The placeholder whose text is `s`, if there is one (R9: each value of `PH` is one of the three). -/
def placeholderOf? (sp : Spelling) (s : Str) : Option Placeholder :=
  if s = placeholderText sp .empty then some .empty
  else if s = placeholderText sp .scanning then some .scanning
  else if s = placeholderText sp .seeking then some .seeking
  else none

/-! ### Rotary integers -/

/-- `clamp(v, lo, hi) = max(lo, min(hi, v))`, in the integers (R12, R198). -/
def clamp (v lo hi : Int) : Int := max lo (min hi v)

/-- `elapsed = now - ROT_T`, in the integers, so negative when `now < ROT_T` (R191, R199). -/
def elapsed (now last : Nat) : Int := (now : Int) - (last : Int)

/-- Whether the level `b` decrements, by the polarity (R190, R192). -/
def decrements (pol : Polarity) (b : Bool) : Bool :=
  match pol with
  | .highDec => b
  | .highInc => !b

end Sys2Proof.Machine
end

