-- ==== Sys2Proof/Machine/Flags.lean ====
section
/-! DEFINITION. The tests the operations make: the data-ready flag, the printable test, the debounce test. -/

namespace Sys2Proof.Machine

/-- `RDSR = SH[REG_STATUS][15]` (R24, R83). -/
def dataReady (s : State) : Bool := s.sh[s.cfg.regStatus].getLsbD 15

/-- `printable(c)` is `32 <= c and c <= 126` (R12, R89). -/
def printable (c : Byte) : Bool := decide (32 ≤ c.toNat) && decide (c.toNat ≤ 126)

/-- Whether a group that carries the characters `cs` writes at least one (R158, R161). -/
def wrote (cs : List Byte) : Bool := cs.any printable

/-- `CHAR_DROPPED`, once for each character that is not printable (R156, R159, R226). -/
def droppedEvents (cs : List Byte) : List Event :=
  (cs.filter fun c => !printable c).map fun _ => .charDropped

/-- An edge at `now` is discarded: `elapsed < 50` (R191; 50 is `DEBOUNCE_MS` of R8). -/
def discarded (now last : Nat) : Bool := decide (elapsed now last < 50)

/-- `ROT_MIN <= v <= ROT_MAX` (R196, R197). -/
def inRotRange (c : Config) (v : Int) : Bool := decide (c.rotMin ≤ v) && decide (v ≤ c.rotMax)

/-- A failed read ends the tick: only under `STALE_POLICY = SKIP` (R9, R152). -/
def endsTick (c : Config) (bus : BusAnswer) : Bool := bus == .fail && c.stalePolicy == .skip

end Sys2Proof.Machine
end

