-- ==== Sys2Proof/Machine/Ops.lean ====
section
/-! DEFINITION. The named operations on the cells: the shared refresh, the character writes, the reset of the accumulator,
taking the edge interrupt, power-on, and how a request is rejected. -/

namespace Sys2Proof.Machine

/-- What an operation answers. -/
abbrev Result := Host.Outcome State Fault Refusal

/-! ### Updates of the cells -/

/-- Replaces `SH`. -/
def State.setSh (s : State) (sh : Vector Word 16) : State := { s with sh := sh }

/-- Replaces `PS` and `PS_STR`: no operation writes one without deciding the other (R33). -/
def State.setName (s : State) (ps : Vector Byte 8) (str : Str) : State := { s with ps := ps, psStr := str }

/-- Replaces `RT` and `RT_STR`. -/
def State.setText (s : State) (rt : Vector Byte 64) (str : Str) : State := { s with rt := rt, rtStr := str }

/-- Replaces `ROT_VAL`. -/
def State.setRotVal (s : State) (v : Int) : State := { s with rotVal := v }

/-- Replaces `ROT_T` and `ROT_B`, the record of the last accepted edge (R194). -/
def State.setEdge (s : State) (now : Nat) (b : Bool) : State := { s with rotT := now, rotB := b }

/-- Replaces the host's tape. -/
def State.setInputs (s : State) (rs : List Request) : State := { s with inputs := rs }

/-- Replaces the output of the latest operation. -/
def State.setOut (s : State) (o : Output) : State := { s with out := o }

/-- The operation ends in `s` with output `o`. -/
def finish (s : State) (o : Output) : Result := .next (s.setOut o)

/-! ### The shadow -/

/-- The refresh of R110 to R112, shared by `SH_REFRESH` and step 1 of `RDS_PROCESS` (R151): the state with the new shadow and
the events, or the refusal of a burst that is not 32 bytes. -/
def refreshShadow (bus : BusAnswer) (s : State) : Except Refusal (State × List Event) :=
  match bus with
  | .fail => .ok (s, [.transportReadFail])
  | .ok w => if w.length = 32 then .ok (s.setSh (burstWords w), []) else .error .badBurstLength

/-! ### The accumulator -/

/-- Writes `c` at position `i` if it is printable, else leaves the position as it was (R157). -/
def putChar {n : Nat} (buf : Vector Byte n) (i : Nat) (c : Byte) : Vector Byte n :=
  if printable c then buf.setIfInBounds i c else buf

/-- Writes the characters `cs` from position `i` on, each on its own (R156, R157, R159). -/
def putChars {n : Nat} (buf : Vector Byte n) (i : Nat) : List Byte → Vector Byte n
  | [] => buf
  | c :: cs => putChars (putChar buf i c) (i + 1) cs

/-- `PS` and `PS_STR` after a station-name group (R156, R158). -/
def groupName (seg : BitVec 2) (d : Word) (s : State) : State :=
  s.setName (putChars s.ps (psIndex seg) (psChars d))
    (if wrote (psChars d) then join (putChars s.ps (psIndex seg) (psChars d)) else s.psStr)

/-- `RT` and `RT_STR` after a radio-text group (R159, R161). -/
def groupText (seg : BitVec 4) (c d : Word) (s : State) : State :=
  s.setText (putChars s.rt (rtIndex seg) (rtChars c d))
    (if wrote (rtChars c d) then strip (join (putChars s.rt (rtIndex seg) (rtChars c d))) else s.rtStr)

/-- Both buffers to spaces, both strings to their placeholders (R180). -/
def blankAccumulator (cause : Cause) (s : State) : State :=
  (s.setName (Vector.replicate 8 0x20) (ph s.cfg cause .name)).setText
    (Vector.replicate 64 0x20) (ph s.cfg cause .text)

/-- Step 3 and 4 of the tick: the group in the shadow (R154, R155). -/
def readGroup (s : State) : Group :=
  decodeGroup s.sh[s.cfg.regRdsb] s.sh[s.cfg.regRdsc] s.sh[s.cfg.regRdsd]

/-- Puts events that came earlier in the same operation before those of `r` (the order of R237). -/
def afterEvents (ev : List Event) (r : Result) : Result :=
  match r with
  | .next s => .next (s.setOut { s.out with events := ev ++ s.out.events })
  | .fault f => .fault f
  | .refused e => .refused e

/-! ### The edge interrupt -/

/-- The value after an accepted edge: one step by the level `b`, clamped (R190, R192, R193). -/
def stepValue (c : Config) (v : Int) (b : Bool) : Int :=
  if decrements c.rotPol b then clamp (v - c.rotStep) c.rotMin c.rotMax
  else clamp (v + c.rotStep) c.rotMin c.rotMax

/-- Taking the edge interrupt (R238): the handler's whole effect in one transition. Entry saves nothing and switches
nothing, and there is nothing to return to or restore (R239), so no saved cell is written. -/
def takeEdge (now : Nat) (b : Bool) (s : State) : State :=
  if discarded now s.rotT then s.setOut { events := [.edgeDiscarded] }
  else (((s.setEdge now b).setRotVal (stepValue s.cfg s.rotVal b))).setOut {}

/-! ### Power-on -/

/-- The configuration a raw one stands for, if it keeps the premises of R231 (`BAD_CONFIG`). -/
def RawConfig.check (r : RawConfig) : Option Config := do
  let st ← regIndex? r.regStatus
  let b ← regIndex? r.regRdsb
  let c ← regIndex? r.regRdsc
  let d ← regIndex? r.regRdsd
  let rn ← placeholderOf? r.spelling r.phRetuneName
  let rt ← placeholderOf? r.spelling r.phRetuneText
  let sn ← placeholderOf? r.spelling r.phSeekName
  let st' ← placeholderOf? r.spelling r.phSeekText
  let cfg : Config :=
    { regStatus := st, regRdsb := b, regRdsc := c, regRdsd := d,
      phRetuneName := rn, phRetuneText := rt, phSeekName := sn, phSeekText := st',
      spelling := r.spelling, rotMin := r.rotMin, rotMax := r.rotMax, rotStep := r.rotStep,
      rotStart := r.rotStart, rotPol := r.rotPol, t0 := r.t0, stalePolicy := r.stalePolicy,
      busAddr := r.busAddr, rotB0 := r.rotB0 }
  if cfg.WF then some cfg else none

/-- Start-up of an instance: the parameters are checked and fixed, then the cells take their reset values (R260, R262). -/
def powerOn (r : RawConfig) : Result :=
  match RawConfig.check r with
  | some c => .next (State.ofConfig c)
  | none => .refused .badConfig

/-! ### Requests -/

/-- The refusal a request that is no operation ends in (R95, R231; log 3). -/
def rejection : Reject → Refusal
  | .badCommand => .badCommand
  | .badOperandBytes => .badOperandBytes

/-- Adds requests after those already on the host's tape. -/
def State.issue (s : State) (rs : List Request) : State := s.setInputs (s.inputs ++ rs)

/-- Places a group so that the very next operation decodes it: the four registers in the shadow with the data-ready bit set,
and a tick whose burst carries that same shadow (log 4). A group operation never runs on its own (R3). -/
def State.placeGroup (s : State) (b c d : Word) : State :=
  let sh := (((s.sh.set s.cfg.regRdsd d).set s.cfg.regRdsc c).set s.cfg.regRdsb b).set
    s.cfg.regStatus 0x8000
  (s.setSh sh).setInputs (⟨.command, 0x4 :: encodeBus (.ok (burstBytes sh))⟩ :: s.inputs)

end Sys2Proof.Machine
end

