-- ==== Sys2Proof/Machine/Accumulator.lean ====
section
/-! DEFINITION. The retune/seek reset and the string accessors: `RDS_RESET`, `RDS_NAME`, `RDS_TEXT`
(43_rds_reset_accessors.md). -/

namespace Sys2Proof.Machine

/-- `RDS_RESET cause` (R180, R182): the shadow and the rotary cells keep their values. -/
def execRdsReset (cause : Cause) (s : State) : Result := finish (blankAccumulator cause s) {}

/-- `RDS_NAME` (R183): the cached string. -/
def execRdsName (s : State) : Result := finish s { result := some (.str s.psStr) }

/-- `RDS_TEXT` (R184): the cached string. -/
def execRdsText (s : State) : Result := finish s { result := some (.str s.rtStr) }

end Sys2Proof.Machine
end

