-- ==== Sys2Proof/Machine/Rds.lean ====
section
/-! DEFINITION. The RDS decoder tick and its group operations: `RDS_PROCESS`, `RDS_PS`, `RDS_RT`, `RDS_IGN`
(42_rds_process.md). -/

namespace Sys2Proof.Machine

/-- `RDS_PS` (R156 to R158). -/
def execRdsPs (seg : BitVec 2) (d : Word) (s : State) : Result :=
  finish (groupName seg d s) { events := droppedEvents (psChars d) }

/-- `RDS_RT` (R159 to R161). -/
def execRdsRt (seg : BitVec 4) (c d : Word) (s : State) : Result :=
  finish (groupText seg c d s) { events := droppedEvents (rtChars c d) }

/-- `RDS_IGN` (R162): nothing but the event. -/
def execRdsIgn (gt : BitVec 5) (s : State) : Result :=
  finish s { events := [.groupIgnored gt] }

/-- The dispatch of steps 5 to 7 (R155). -/
def runGroup (g : Group) (s : State) : Result :=
  match g with
  | .ps seg d => execRdsPs seg d s
  | .rt seg c d => execRdsRt seg c d s
  | .ign gt => execRdsIgn gt s

/-- Steps 2 to 7 of the tick (R153 to R155), after a refresh that raised the events `ev`. -/
def decodeTick (ev : List Event) (s : State) : Result :=
  if dataReady s then afterEvents ev (runGroup (readGroup s) s) else finish s { events := ev }

/-- `RDS_PROCESS bus` (R150 to R155): refresh, gate, dispatch, as one transition. A failed read goes on with the stale
shadow, unless `STALE_POLICY = SKIP` ends the tick there (R152). -/
def execRdsProcess (bus : BusAnswer) (s : State) : Result :=
  match refreshShadow bus s with
  | .error r => .refused r
  | .ok (s', ev) => if endsTick s'.cfg bus then finish s' { events := ev } else decodeTick ev s'

end Sys2Proof.Machine
end

