-- ==== Sys2Proof/Machine/Rotary.lean ====
section
/-! DEFINITION. The rotary unit: `ROT_EDGE`, `ROT_GET`, `ROT_SET` (44_rotary.md). -/

namespace Sys2Proof.Machine

/-- `ROT_EDGE now, b` (R190 to R194). `now` below `ROT_T` makes a negative elapsed time, so a discarded edge (R199; log 15). -/
def execRotEdge (now : Nat) (b : Bool) (s : State) : Result := .next (takeEdge now b s)

/-- `ROT_GET` (R195). -/
def execRotGet (s : State) : Result := finish s { result := some (.int s.rotVal) }

/-- `ROT_SET v` (R196, R197): `ROT_T` and `ROT_B` keep their values. -/
def execRotSet (v : Int) (s : State) : Result :=
  if inRotRange s.cfg v then finish (s.setRotVal v) {} else .refused .rotSetRange

end Sys2Proof.Machine
end

