-- ==== Sys2Proof/Machine/Shadow.lean ====
section
/-! DEFINITION. The Register Shadow Store: `SH_REFRESH`, `SH_COMMIT`, `SH_GET`, `SH_SET` (40_shadow_store.md). -/

namespace Sys2Proof.Machine

/-- `SH_REFRESH bus` (R110, R111, R112). -/
def execShRefresh (bus : BusAnswer) (s : State) : Result :=
  match refreshShadow bus s with
  | .ok (s', ev) => finish s' { events := ev }
  | .error r => .refused r

/-- `SH_COMMIT lo, hi` (R113, R114). The burst is emitted whatever the transport answers; a reported error is only an
event, and the shadow keeps its words (log 13). -/
def execShCommit (lo hi : Nat) (ack : WriteAnswer) (s : State) : Result :=
  if lo = 0x02 ∧ hi = 0x07 then
    finish s { busWrite := some (commitBytes s.sh),
               events := match ack with
                 | .done => []
                 | .fail => [.transportWriteFail] }
  else .refused .badCommitRange

/-- `SH_GET reg` (R115). -/
def execShGet (reg : Nat) (s : State) : Result :=
  match regIndex? reg with
  | some r => finish s { result := some (.word s.sh[r]) }
  | none => .refused .badRegister

/-- `SH_SET reg, val` (R116): the register index is tested before the value. -/
def execShSet (reg val : Nat) (s : State) : Result :=
  match regIndex? reg with
  | some r =>
    if val ≤ 0xFFFF then finish (s.setSh (s.sh.set r (BitVec.ofNat 16 val))) {}
    else .refused .badWord
  | none => .refused .badRegister

end Sys2Proof.Machine
end

