-- ==== Sys2Proof/Machine/Dispatch.lean ====
section
/-! DEFINITION. One arm per operation. -/

namespace Sys2Proof.Machine

def exec (i : Instr) (s : State) : Host.Outcome State Fault Refusal :=
  match i with
  | .shRefresh bus => Sys2Proof.Machine.execShRefresh bus s
  | .shCommit lo hi ack => Sys2Proof.Machine.execShCommit lo hi ack s
  | .shGet reg => Sys2Proof.Machine.execShGet reg s
  | .shSet reg val => Sys2Proof.Machine.execShSet reg val s
  | .rdsProcess bus => Sys2Proof.Machine.execRdsProcess bus s
  | .rdsReset cause => Sys2Proof.Machine.execRdsReset cause s
  | .rdsName => Sys2Proof.Machine.execRdsName s
  | .rdsText => Sys2Proof.Machine.execRdsText s
  | .rotGet => Sys2Proof.Machine.execRotGet s
  | .rotSet v => Sys2Proof.Machine.execRotSet v s
  | .rotEdge now b => Sys2Proof.Machine.execRotEdge now b s
  | .rdsPs seg d => Sys2Proof.Machine.execRdsPs seg d s
  | .rdsRt seg c d => Sys2Proof.Machine.execRdsRt seg c d s
  | .rdsIgn gt => Sys2Proof.Machine.execRdsIgn gt s

end Sys2Proof.Machine
end

