-- ==== Sys2Proof/Machine/Step.lean ====
section
/-! DEFINITION. One step: the next request of the host, decoded and executed. -/

namespace Sys2Proof.Machine

/-- One step. The block fetches nothing (R23); the host issues the next operation (D2), which the model reads off the tape
and runs as one atomic transition (R62). With nothing issued the machine stays as it is (R15: it never halts; log 2). -/
def step (s : State) : Host.Outcome State Fault Refusal :=
  match s.inputs with
  | [] => .next s
  | r :: rest =>
    match decode r with
    | .ok i => exec i (s.setInputs rest)
    | .error e => .refused (rejection e)

/-- `s` with the operation of a table row as the very next one: a row of up to 8 bits as a request at the head of the tape,
a block B as the group of a tick at the head of the tape (log 2, log 4). -/
def State.withFetchWord (s : State) (nbits w : Nat) : State :=
  if 8 < nbits then s.placeGroup (BitVec.ofNat 16 w) 0 0
  else s.setInputs (tableRequest nbits w :: s.inputs)

end Sys2Proof.Machine
end

