-- ==== Sys2Proof/Machine/Run.lean ====
section
/-! DEFINITION. A run and its result: the state after the last operation together with the outputs returned along the way
(00_scope.md R15). -/

namespace Sys2Proof.Machine

/-- The result of a run (R15). -/
structure Run where
  state : State
  /-- what each operation gave the outside, first operation first -/
  outs : List Output
deriving DecidableEq, Repr

/-- What a run answers: its result, or the refusal of its first operation outside the contract. -/
abbrev RunResult := Host.Outcome Run Fault Refusal

/-- Puts the output of an earlier operation before those of the rest of the run. -/
def afterOutput (o : Output) (r : RunResult) : RunResult :=
  match r with
  | .next d => .next { d with outs := o :: d.outs }
  | .fault f => .fault f
  | .refused e => .refused e

/-- A run of operations, each on the state the one before it left (R15, R66). -/
def runOps : List Instr → State → RunResult
  | [], s => .next ⟨s, []⟩
  | i :: is, s =>
    match exec i s with
    | .next t => afterOutput t.out (runOps is t)
    | .fault f => .fault f
    | .refused e => .refused e

/-- At most `n` steps on the requests of the tape; an idle step is no operation and returns no output. -/
def runSteps : Nat → State → RunResult
  | 0, s => .next ⟨s, []⟩
  | n + 1, s =>
    if s.inputs = [] then .next ⟨s, []⟩
    else
      match step s with
      | .next t => afterOutput t.out (runSteps n t)
      | .fault f => .fault f
      | .refused e => .refused e

/-- The run of R15: the host's requests from the reset state of the instance it binds. A configuration that breaks a premise
has no reset state, so no run: it is refused `badConfig` (R204, R231; D26, log 28). Edges follow R199, which is total; the run of
a host that is held to R218's duty towards `ROT_EDGE` is `Env.runHost` (log 15). -/
def runFromReset (r : RawConfig) (rs : List Request) : RunResult :=
  match powerOn r with
  | .next s => runSteps rs.length (s.setInputs rs)
  | .fault f => .fault f
  | .refused e => .refused e

end Sys2Proof.Machine
end

