-- ==== Sys2Proof/Machine/Environment.lean ====
section
/-! DEFINITION. The surrounding software as expansions over the block's operations (30_encoding.md R101): Tuner Control
(41_tuner_control_env.md), the tick, the UI mode and the button, and the host table (45_main_tick_env.md). Not part of the
block (R6); no step of the block reads it (log 22). -/

namespace Sys2Proof.Machine.Env

/-! ### The chip, TunerState and the loop -/

/-- The chip fields R131 to R136 name without numbers (R27): parameters of the environment. The three registers Tuner Control
changes and commits are in the write block (R27, R63) and are given by their place in it, 0 for register 0x02 to 5 for 0x07. -/
structure Chip where
  regChan : Fin 6
  regAudio : Fin 6
  regPwr : Fin 6
  /-- any register: that it lies outside the write block is only implied (R27) -/
  regReadchan : Fin 16
  regRssi : Fin 16
  /-- where the resolved channel begins in `REG_READCHAN` (R27: no position) -/
  lowReadchan : Fin 16
  /-- how wide it is (R132: not given) -/
  widthReadchan : Fin 17
  /-- the lowest bit of the 8-bit signal-strength field (R136) -/
  lowRssi : Fin 9
  bitTune : Fin 16
  bitMute : Fin 16
  bitPower : Fin 16
  bitSeekDir : Fin 16
  bitSeekEn : Fin 16
  bitStc : Fin 16
  /-- R134: whether "flip" inverts the mute bit or sets it for the argument -/
  flipInverts : Bool
  /-- the level of the mute bit that means muted -/
  muteLevel : Bool
  /-- the level of the power bit that means on -/
  powerLevel : Bool
deriving DecidableEq, Repr

/-- The logical register at a place in the write block (R63). -/
def writeReg (p : Fin 6) : Fin 16 := ⟨2 + p.val, by omega⟩

/-- TunerState (R40, R130): the frequency 87.5 to 108.0 MHz in units of 100 kHz above 87.5, the volume 0 to 15, and the flags. -/
structure Tuner where
  channel : Fin 206
  volume : Fin 16
  mute : Bool
  power : Bool
deriving DecidableEq, Repr

/-- The frequency in MHz a channel number stands for: `(875 + channel) / 10` (R132, C3), exact (DESIGN CHOICE, log 29). -/
def mhzOf (channel : Nat) : Rat := (875 + (channel : Rat)) / 10

/-- UiMode (R40, R213). -/
inductive Mode where
  | frequency
  | volume
deriving DecidableEq, Repr

/-- What the main loop keeps (R40, R212, R214, R217). Its initial content is not given (R212, R213): any. -/
structure Loop where
  tuner : Tuner
  mode : Mode
  /-- the previous tick's rotary value -/
  prev : Int
  /-- when the button last toggled the mode, milliseconds -/
  lastToggle : Option Nat
  /-- where the display's scrolling stands (R216) -/
  scrollOffset : Int
  /-- held for good by a `seek` without response (R135, U3, R279) -/
  suspended : Bool
deriving DecidableEq, Repr

/-! ### Procedures -/

/-- What a procedure leaves: its value, the block's state, and the outputs of its operations in order (R15, R101). -/
structure Done (α : Type) where
  value : α
  state : State
  outs : List Output
deriving DecidableEq, Repr

/-- A procedure of the environment. -/
abbrev Proc (α : Type) := State → Host.Outcome (Done α) Fault Refusal

/-- No operation. -/
def ret {α : Type} (a : α) : Proc α := fun s => .next ⟨a, s, []⟩

/-- Puts the outputs of what came earlier before those of `r`. -/
def afterOuts {α : Type} (os : List Output) (r : Host.Outcome (Done α) Fault Refusal) :
    Host.Outcome (Done α) Fault Refusal :=
  match r with
  | .next d => .next { d with outs := os ++ d.outs }
  | .fault f => .fault f
  | .refused e => .refused e

/-- One procedure after another, stopping at the first refusal. -/
def andThen {α β : Type} (p : Proc α) (k : α → Proc β) : Proc β := fun s =>
  match p s with
  | .next d => afterOuts d.outs (k d.value d.state)
  | .fault f => .fault f
  | .refused e => .refused e

/-- One operation of the block. -/
def op (i : Instr) : Proc Unit := fun s =>
  match exec i s with
  | .next t => .next ⟨(), t, [t.out]⟩
  | .fault f => .fault f
  | .refused e => .refused e

/-- Reads what an operation just returned, off the cell it returned. -/
def look {α : Type} (f : State → α) : Proc α := fun s => .next ⟨f s, s, []⟩

/-- Events of the environment itself (E6, E7 of R226): no operation of the block, and nothing if there is none. -/
def note (ev : List Event) : Proc Unit := fun s => .next ⟨(), s, if ev = [] then [] else [{ events := ev }]⟩

/-- `SH_GET r` and its value. -/
def getReg (r : Fin 16) : Proc Word := andThen (op (.shGet r.val)) fun _ => look fun s => s.sh[r]

/-- `SH_GET r`, then `SH_SET r` with the word changed by `f`; answers the word set. -/
def modifyReg (r : Fin 16) (f : Word → Word) : Proc Word :=
  andThen (getReg r) fun x => andThen (op (.shSet r.val (f x).toNat)) fun _ => ret (f x)

/-- `SH_COMMIT 0x02, 0x07`. -/
def commit (ack : WriteAnswer) : Proc Unit := op (.shCommit 0x02 0x07 ack)

/-! ### Fields of a word -/

/-- `x` with bit `i` replaced by `b`. -/
def withBit (x : Word) (i : Fin 16) (b : Bool) : Word :=
  if b then x ||| BitVec.twoPow 16 i.val else x &&& ~~~ BitVec.twoPow 16 i.val

/-- `x` with its low 9 bits replaced (R131). -/
def withLow9 (x : Word) (ch : BitVec 9) : Word := x.extractLsb' 9 7 ++ ch

/-- `x` with its low 4 bits replaced (R133). -/
def withLow4 (x : Word) (v : BitVec 4) : Word := x.extractLsb' 4 12 ++ v

/-! ### Frequency and volume -/

/-- `clamp(mhz, 87.5, 108.0)` (R131). -/
def clampMhz (mhz : Rat) : Rat := max (175 / 2) (min 108 mhz)

/-- `round(x)` to the nearest integer (R131); the direction at a tie is free (R141). -/
def roundNearest (x : Rat) : Int :=
  if x - x.floor < 1 / 2 then x.floor
  else if 1 / 2 < x - x.floor then x.floor + 1
  else if Config.tieRoundsUp x then x.floor + 1 else x.floor

/-- The channel index of a requested frequency: `round(f * 10) - 875` of the clamped one (R131), the product formed exactly
(DESIGN CHOICE, log 29: R141 does not give the arithmetic). -/
def channelOf (mhz : Rat) : Nat := (roundNearest (clampMhz mhz * 10) - 875).toNat

/-- E6 `INPUT_CLAMPED`, when the argument was out of range (R138, R226). -/
def clampEvents (inRange : Bool) : List Event := if inRange then [] else [.inputClamped]

/-- `set_frequency(mhz)` (R131), the reset last (R140: its place does not matter to the state at the end). -/
def setFrequency (chip : Chip) (mhz : Rat) (bus : BusAnswer) (ack₁ ack₂ : WriteAnswer) : Proc Unit :=
  andThen (note (clampEvents (clampMhz mhz = mhz))) fun _ =>
  andThen (op (.shRefresh bus)) fun _ =>
  andThen (modifyReg (writeReg chip.regChan)
    (fun x => withBit (withLow9 x (BitVec.ofNat 9 (channelOf mhz))) chip.bitTune true)) fun _ =>
  andThen (commit ack₁) fun _ =>
  andThen (modifyReg (writeReg chip.regChan) (fun y => withBit y chip.bitTune false)) fun _ =>
  andThen (commit ack₂) fun _ =>
  op (.rdsReset .retune)

/-- The resolved channel in a word of `REG_READCHAN` (R132): position and width are parameters. -/
def channelField (chip : Chip) (w : Word) : Nat := (w.extractLsb' chip.lowReadchan.val chip.widthReadchan.val).toNat

/-- The channel TunerState keeps of one read back (R130: 87.5 to 108.0 MHz). -/
def keptChannel (n : Nat) : Fin 206 := if h : n < 206 then ⟨n, h⟩ else Config.channelOutOfRange n

/-- `get_frequency()` (R132): the frequency in MHz, which TunerState then holds (R130). -/
def getFrequency (chip : Chip) (bus : BusAnswer) (tuner : Tuner) : Proc (Rat × Tuner) :=
  andThen (op (.shRefresh bus)) fun _ =>
  andThen (getReg chip.regReadchan) fun c =>
  ret (mhzOf (channelField chip c), { tuner with channel := keptChannel (channelField chip c) })

/-- `clamp(v, 0, 15)` (R133). -/
def volumeOf (v : Int) : Fin 16 := ⟨(clamp v 0 15).toNat, by simp only [clamp]; omega⟩

/-- `set_volume(v)` (R133); TunerState holds the clamped volume. -/
def setVolume (chip : Chip) (v : Int) (bus : BusAnswer) (ack : WriteAnswer) (tuner : Tuner) : Proc Tuner :=
  andThen (note (clampEvents (clamp v 0 15 = v))) fun _ =>
  andThen (op (.shRefresh bus)) fun _ =>
  andThen (modifyReg (writeReg chip.regAudio) (fun x => withLow4 x (BitVec.ofNat 4 (volumeOf v).val))) fun _ =>
  andThen (commit ack) fun _ =>
  ret { tuner with volume := volumeOf v }

/-! ### Mute and power -/

/-- The body of `mute` and `shutdown` (R134): refresh, change one bit of the power register, commit; answers the new bit. -/
def changePowerBit (chip : Chip) (bit : Fin 16) (level : Bool → Bool) (bus : BusAnswer) (ack : WriteAnswer) : Proc Bool :=
  andThen (op (.shRefresh bus)) fun _ =>
  andThen (modifyReg (writeReg chip.regPwr) (fun x => withBit x bit (level (x.getLsbD bit.val)))) fun x =>
  andThen (commit ack) fun _ =>
  ret (x.getLsbD bit.val)

/-- `mute(on)` (R134): the bit is inverted, or set to the level that means `on`. The flag of TunerState follows the bit
(DEDUCED, log 29). -/
def mute (chip : Chip) (on : Bool) (bus : BusAnswer) (ack : WriteAnswer) (tuner : Tuner) : Proc Tuner :=
  andThen (changePowerBit chip chip.bitMute
    (fun old => if chip.flipInverts then !old else on == chip.muteLevel) bus ack) fun b =>
  ret { tuner with mute := b == chip.muteLevel }

/-- `shutdown()` (R134): the bit is inverted. The flag of TunerState follows the bit (DEDUCED, log 29). -/
def shutdown (chip : Chip) (bus : BusAnswer) (ack : WriteAnswer) (tuner : Tuner) : Proc Tuner :=
  andThen (changePowerBit chip chip.bitPower (fun old => !old) bus ack) fun b =>
  ret { tuner with power := b == chip.powerLevel }

/-! ### Seek -/

/-- The refresh-and-test loop of `seek` (R135), on the answers the bus will give: `true` when the bit took the awaited level,
`false` when the answers ran out with the loop still waiting (it has no bound, R230, U3). -/
def poll (chip : Chip) (awaited : Bool) : List BusAnswer → Proc Bool
  | [] => ret false
  | bus :: rest =>
    andThen (op (.shRefresh bus)) fun _ =>
    andThen (look fun s => s.cfg.regStatus) fun r =>
    andThen (getReg r) fun x =>
    if x.getLsbD chip.bitStc.val = awaited then ret true else poll chip awaited rest

/-- How far a `seek` came: to a frequency in MHz, or still in one of its loops. -/
inductive Seek where
  | found (mhz : Rat)
  | waiting
deriving DecidableEq, Repr

/-- Where in `seek` the reset is issued: not given, so any place (R140, U27). -/
inductive ResetPlace where
  | atStart
  | afterEnable
  | afterComplete
  | afterDisable
  | afterRelease
  | atEnd
deriving DecidableEq, Repr

/-- `RDS_RESET SEEK`, if this is its place. -/
def resetAt (place here : ResetPlace) : Proc Unit := if place = here then op (.rdsReset .seek) else ret ()

/-- The loop waits for good (R135, R230): E7 `SEEK_NO_RESPONSE`, "in the reference behaviour not an event but a hang" (R226). -/
def noResponse (tuner : Tuner) : Proc (Seek × Tuner) :=
  andThen (note [.seekNoResponse]) fun _ => ret (.waiting, tuner)

/-- What follows the first loop of `seek` (R135). -/
def seekDone (chip : Chip) (place : ResetPlace) (down : List BusAnswer) (bus : BusAnswer) (ack : WriteAnswer)
    (tuner : Tuner) : Proc (Seek × Tuner) :=
  andThen (resetAt place .afterComplete) fun _ =>
  andThen (modifyReg (writeReg chip.regPwr) (fun y => withBit y chip.bitSeekEn false)) fun _ =>
  andThen (commit ack) fun _ =>
  andThen (resetAt place .afterDisable) fun _ =>
  andThen (poll chip false down) fun released =>
  if released then
    andThen (resetAt place .afterRelease) fun _ =>
    andThen (getFrequency chip bus tuner) fun f =>
    andThen (resetAt place .atEnd) fun _ =>
    ret (.found f.1, f.2)
  else noResponse tuner

/-- `seek(direction)` (R135). A direction out of range is clamped silently (R138, R228), to what is free; `up` and `down` are
the answers to the reads of the two loops. -/
def seek (chip : Chip) (direction : Int) (place : ResetPlace) (up down : List BusAnswer) (bus : BusAnswer)
    (ack₁ ack₂ : WriteAnswer) (tuner : Tuner) : Proc (Seek × Tuner) :=
  andThen (note (clampEvents (Config.clampSeekDirection direction = direction))) fun _ =>
  andThen (resetAt place .atStart) fun _ =>
  andThen (modifyReg (writeReg chip.regPwr) (fun x => withBit
    (withBit x chip.bitSeekDir (Config.seekDirectionBit (Config.clampSeekDirection direction)))
    chip.bitSeekEn true)) fun _ =>
  andThen (commit ack₁) fun _ =>
  andThen (resetAt place .afterEnable) fun _ =>
  andThen (poll chip true up) fun complete =>
  if complete then seekDone chip place down bus ack₂ tuner else noResponse tuner

/-- `get_rssi()` (R136). -/
def getRssi (chip : Chip) (bus : BusAnswer) : Proc (BitVec 8) :=
  andThen (op (.shRefresh bus)) fun _ =>
  andThen (getReg chip.regRssi) fun x =>
  ret (x.extractLsb' chip.lowRssi.val 8)

/-! ### The button -/

/-- R213: the other mode. -/
def Mode.other : Mode → Mode
  | .frequency => .volume
  | .volume => .frequency

/-- Whether a press at `now` falls in the cooldown after the toggle at `t` (R214). Exactly 300 ms is free; so is a `now` below
`t`, of which the spec is silent for the button: no duty binds the clock of the tick (log 22). -/
def inCooldown (now t : Nat) : Bool :=
  if elapsed now t < 0 ∨ elapsed now t = 300 then Config.ignoredPress now t else decide (elapsed now t < 300)

/-- A press of the button at `now` (R213, R214): toggles the mode unless it falls in the cooldown. -/
def press (now : Nat) (h : Loop) : Loop :=
  if h.lastToggle.any (inCooldown now) then h
  else { h with mode := h.mode.other, lastToggle := some now }

/-- The button polled at `now` (R214): level-triggered and active-low, so `false`, the low level, is a press. Every low poll
outside the cooldown toggles, with no earlier level kept (DESIGN CHOICE, log 30: R213 speaks of a button "edge"). -/
def pollButton (now : Nat) (level : Bool) (h : Loop) : Loop := if level then h else press now h

/-! ### The tick -/

/-- What one tick meets from outside the block. -/
structure TickInput where
  /-- the answer to the tick's own read -/
  busTick : BusAnswer
  /-- the answer to the read of the routed procedure -/
  busRoute : BusAnswer
  /-- the answers to the further reads for the render state -/
  busFrequency : BusAnswer
  busRssi : BusAnswer
  ack₁ : WriteAnswer
  ack₂ : WriteAnswer
  /-- the clock, milliseconds -/
  now : Nat
  /-- the button's level; `true` is high -/
  button : Bool
  /-- whether the button is polled before the delta is routed: its place in the tick is not given (R210, R214) -/
  buttonFirst : Bool
  /-- how it is obtained is not given (R216) -/
  stereo : Bool
  /-- where the scrolling stands after this tick: no rule says how it moves (R216, R217) -/
  scroll : Int
deriving DecidableEq, Repr

/-- The render state a tick hands to the display (R216); the frequency in MHz, exact (DESIGN CHOICE, log 29: R216 says "float"
and gives no format). -/
structure RenderState where
  frequency : Rat
  volume : Fin 16
  rssi : BitVec 8
  stereo : Bool
  mode : Mode
  stationName : Str
  scrollText : Str
  scrollOffset : Int
deriving DecidableEq, Repr

/-- Routing a delta (R210): none if it is zero, as the pseudocode has it (DESIGN CHOICE, log 22: R210 says it is not given). -/
def route (chip : Chip) (delta : Int) (inp : TickInput) (h : Loop) : Proc Loop :=
  if delta = 0 then ret h
  else
    match h.mode with
    | .frequency =>
      andThen (setFrequency chip (Config.frequencyArgument (mhzOf h.tuner.channel.val) delta)
        inp.busRoute inp.ack₁ inp.ack₂) fun _ => ret h
    | .volume =>
      andThen (setVolume chip (Config.volumeArgument h.tuner.volume.val delta) inp.busRoute inp.ack₁ h.tuner) fun t =>
      ret { h with tuner := t }

/-- One tick of the main loop (R210, R212, R214). Its scroll text is a free function of what `RDS_TEXT` returned (R216). -/
def tick (chip : Chip) (inp : TickInput) (h : Loop) : Proc (Loop × RenderState) :=
  andThen (op (.rdsProcess inp.busTick)) fun _ =>
  andThen (op .rotGet) fun _ =>
  andThen (look fun s => s.rotVal) fun v =>
  let polled : Loop := if inp.buttonFirst then pollButton inp.now inp.button h else h
  andThen (route chip (v - h.prev) inp { polled with prev := v, scrollOffset := inp.scroll }) fun routed =>
  let h' : Loop := if inp.buttonFirst then routed else pollButton inp.now inp.button routed
  andThen (op .rdsName) fun _ =>
  andThen (look fun s => s.psStr) fun name =>
  andThen (op .rdsText) fun _ =>
  andThen (look fun s => s.rtStr) fun text =>
  andThen (getFrequency chip inp.busFrequency h'.tuner) fun f =>
  andThen (getRssi chip inp.busRssi) fun rssi =>
  ret ({ h' with tuner := f.2 },
    { frequency := f.1, volume := f.2.volume, rssi := rssi, stereo := inp.stereo, mode := h'.mode,
      stationName := name, scrollText := Config.scrollText text, scrollOffset := h'.scrollOffset })

/-! ### The host -/

/-- What the host does next: an edge, or the main loop's part: any main-loop operation by itself, as the bytes of a request at
the command port (R91; R218: "in any order, any number of times"), or one procedure. -/
inductive Action where
  | edge (now : Nat) (b : Bool)
  | command (bytes : List Byte)
  | tick (inp : TickInput)
  | setFrequency (mhz : Rat) (bus : BusAnswer) (ack₁ ack₂ : WriteAnswer)
  | getFrequency (bus : BusAnswer)
  | setVolume (v : Int) (bus : BusAnswer) (ack : WriteAnswer)
  | mute (on : Bool) (bus : BusAnswer) (ack : WriteAnswer)
  | shutdown (bus : BusAnswer) (ack : WriteAnswer)
  | seek (direction : Int) (place : ResetPlace) (up down : List BusAnswer) (bus : BusAnswer) (ack₁ ack₂ : WriteAnswer)
  | getRssi (bus : BusAnswer)
deriving DecidableEq, Repr

/-- Whether an action is the interrupt source's, not the main loop's. -/
def Action.isEdge : Action → Bool
  | .edge _ _ => true
  | _ => false

/-- What surrounds the block: the main loop's state, and the clock at the previous edge (R218). -/
structure Surroundings where
  loop : Loop
  lastEdge : Option Nat
deriving DecidableEq, Repr

/-- The duty of R218 towards `ROT_EDGE`: `now` is neither below the previous `now` nor below `ROT_T`. -/
def keepsClockDuty (now : Nat) (w : Surroundings) (s : State) : Bool :=
  decide (s.rotT ≤ now) && w.lastEdge.all fun last => decide (last ≤ now)

/-- An edge under R218's duty; a breach is refused (U17, D13). -/
def actEdge (now : Nat) (b : Bool) (w : Surroundings) : Proc Surroundings := fun s =>
  if keepsClockDuty now w s then (andThen (op (.rotEdge now b)) fun _ => ret { w with lastEdge := some now }) s
  else .refused .clockBackwards

/-- `w` with a TunerState. -/
def Surroundings.setTuner (w : Surroundings) (t : Tuner) : Surroundings :=
  { w with loop := { w.loop with tuner := t } }

/-- After a `seek`: the loop is suspended if the seek still waits (R135, R279). -/
def Surroundings.afterSeek (w : Surroundings) (r : Seek × Tuner) : Surroundings :=
  { w with loop := { w.loop with tuner := r.2, suspended := r.1 = .waiting } }

/-- One operation of the command port; what is none is refused as `step` refuses it (R95, R231). -/
def runCommand (bytes : List Byte) : Proc Unit := fun s =>
  match decode ⟨.command, bytes⟩ with
  | .ok i => op i s
  | .error e => .refused (rejection e)

/-- An operation or a procedure of the main loop while the loop is not suspended. -/
def runProcedure (chip : Chip) (a : Action) (w : Surroundings) : Proc Surroundings :=
  match a with
  | .edge _ _ => ret w
  | .command bytes => andThen (runCommand bytes) fun _ => ret w
  | .tick inp => andThen (tick chip inp w.loop) fun r => ret { w with loop := r.1 }
  | .setFrequency mhz bus ack₁ ack₂ => andThen (setFrequency chip mhz bus ack₁ ack₂) fun _ => ret w
  | .getFrequency bus => andThen (getFrequency chip bus w.loop.tuner) fun r => ret (w.setTuner r.2)
  | .setVolume v bus ack => andThen (setVolume chip v bus ack w.loop.tuner) fun t => ret (w.setTuner t)
  | .mute on bus ack => andThen (mute chip on bus ack w.loop.tuner) fun t => ret (w.setTuner t)
  | .shutdown bus ack => andThen (shutdown chip bus ack w.loop.tuner) fun t => ret (w.setTuner t)
  | .seek direction place up down bus ack₁ ack₂ =>
    andThen (seek chip direction place up down bus ack₁ ack₂ w.loop.tuner) fun r => ret (w.afterSeek r)
  | .getRssi bus => andThen (getRssi chip bus) fun _ => ret w

/-- One action of the host. A suspended loop issues no operation; only `ROT_EDGE` still happens (R135, U3, R279). -/
def act (chip : Chip) (a : Action) (w : Surroundings) : Proc Surroundings :=
  match a with
  | .edge now b => actEdge now b w
  | _ => if w.loop.suspended then ret w else runProcedure chip a w

/-- The host's actions, one after another (R66, R211). -/
def actAll (chip : Chip) : List Action → Surroundings → Proc Surroundings
  | [], w => ret w
  | a :: as, w => andThen (act chip a w) (actAll chip as)

/-- A host's run under R218, from the start-up of the instance it binds: any main-loop operations and procedures with edges in
between, the clock's duty included. No `seek` holds the loop at the start, and no edge came before. -/
def runHost (chip : Chip) (r : RawConfig) (as : List Action) (h : Loop) : Host.Outcome (Done Surroundings) Fault Refusal :=
  match powerOn r with
  | .next s => actAll chip as ⟨{ h with suspended := false }, none⟩ s
  | .fault f => .fault f
  | .refused e => .refused e

end Sys2Proof.Machine.Env
end

