-- ==== Sys2Proof/Safety.lean ====
section
/-! DEFINITION. What claims speak of: the cells and the two units, the invariants of 10_state.md, and which operands are
within the contract of 60_exceptions.md R231. -/

namespace Sys2Proof.Machine

/-- The eight cells of R20 and nothing else. -/
structure Cells where
  sh : Vector Word 16
  ps : Vector Byte 8
  rt : Vector Byte 64
  psStr : Str
  rtStr : Str
  rotVal : Int
  rotT : Nat
  rotB : Bool
deriving DecidableEq, Repr

/-- The cells of a state. -/
def State.cells (s : State) : Cells :=
  ⟨s.sh, s.ps, s.rt, s.psStr, s.rtStr, s.rotVal, s.rotT, s.rotB⟩

/-- The cells of the RDS unit (R44). -/
def State.rdsUnit (s : State) : Vector Word 16 × Vector Byte 8 × Vector Byte 64 × Str × Str :=
  (s.sh, s.ps, s.rt, s.psStr, s.rtStr)

/-- The cells of the rotary unit (R44). -/
def State.rotUnit (s : State) : Int × Nat × Bool := (s.rotVal, s.rotT, s.rotB)

/-- The accumulator: the two buffers and the two strings. -/
def State.accumulator (s : State) : Vector Byte 8 × Vector Byte 64 × Str × Str :=
  (s.ps, s.rt, s.psStr, s.rtStr)

/-- Every position of a buffer holds a code 32 to 126 (R30). -/
def AllPrintable {n : Nat} (buf : Vector Byte n) : Prop := ∀ (i : Nat) (h : i < n), printable buf[i] = true

/-- R30: both buffers. -/
def BufferInv (s : State) : Prop := AllPrintable s.ps ∧ AllPrintable s.rt

/-- R38: `ROT_MIN <= ROT_VAL <= ROT_MAX`. -/
def RotaryInv (s : State) : Prop := s.cfg.rotMin ≤ s.rotVal ∧ s.rotVal ≤ s.cfg.rotMax

/-- The values a reset or `RDS_RESET` gives a string (R31, R32). -/
def Placed (c : Config) (line : Line) (str : Str) : Prop :=
  str = [] ∨ str = ph c .retune line ∨ str = ph c .seek line

/-- R33 without its ghosts: each string is the join of its buffer, or the buffer is blank and the string is a reset's. -/
def StringInv (s : State) : Prop :=
  (s.psStr = join s.ps ∨ (s.ps = Vector.replicate 8 0x20 ∧ Placed s.cfg .name s.psStr)) ∧
  (s.rtStr = strip (join s.rt) ∨ (s.rt = Vector.replicate 64 0x20 ∧ Placed s.cfg .text s.rtStr))

/-- The invariant of the block: R30, R33, R38 and the premises of R204. -/
def BlockInv (s : State) : Prop := s.cfg.WF ∧ BufferInv s ∧ RotaryInv s ∧ StringInv s

/-- The operands to which the spec gives a meaning (R231), for the parameters `c`. -/
def admitted (c : Config) : Instr → Bool
  | .shRefresh bus => bus.wf
  | .shCommit lo hi _ => decide (lo = 0x02) && decide (hi = 0x07)
  | .shGet reg => decide (reg ≤ 0x0F)
  | .shSet reg val => decide (reg ≤ 0x0F) && decide (val ≤ 0xFFFF)
  | .rdsProcess bus => bus.wf
  | .rdsReset _ => true
  | .rdsName => true
  | .rdsText => true
  | .rotGet => true
  | .rotSet v => decide (c.rotMin ≤ v) && decide (v ≤ c.rotMax)
  | .rotEdge _ _ => true
  | .rdsPs _ _ => true
  | .rdsRt _ _ _ => true
  | .rdsIgn _ => true

/-- The operations of the interrupt context (R242). -/
def isEdge : Instr → Bool
  | .rotEdge _ _ => true
  | _ => false

/-- The operations that touch the rotary unit (R43, R44). -/
def isRotary : Instr → Bool
  | .rotEdge _ _ => true
  | .rotGet => true
  | .rotSet _ => true
  | _ => false

/-- A sequence of operations, each on the state the one before it left (R15, R66), up to the first refusal. -/
def execAll : List Instr → State → Result
  | [], s => .next s
  | i :: is, s =>
    match exec i s with
    | .next t => execAll is t
    | .fault f => .fault f
    | .refused e => .refused e

/-- How many edges of a sequence are accepted, when the last accepted one before it was at `last` (R191). -/
def acceptedEdges : List Instr → Nat → Nat
  | [], _ => 0
  | .rotEdge now _ :: is, last =>
    if (now : Int) - (last : Int) < 50 then acceptedEdges is last else acceptedEdges is now + 1
  | _ :: is, last => acceptedEdges is last

/-- The strings a value of `PH` may be, written out (R9, R181), for either spelling of the last code points (U26). -/
def admittedPlaceholders : Spelling → List Str
  | .ellipsis =>
    [[], [83, 99, 97, 110, 110, 105, 110, 103, 0x2026], [83, 101, 101, 107, 105, 110, 103, 0x2026]]
  | .threeStops =>
    [[], [83, 99, 97, 110, 110, 105, 110, 103, 46, 46, 46], [83, 101, 101, 107, 105, 110, 103, 46, 46, 46]]

/-- The premises of R231 on a configuration as the host binds it. -/
def RawConfig.Valid (r : RawConfig) : Prop :=
  r.regStatus ≤ 15 ∧ r.regRdsb ≤ 15 ∧ r.regRdsc ≤ 15 ∧ r.regRdsd ≤ 15 ∧
  r.phRetuneName ∈ admittedPlaceholders r.spelling ∧ r.phRetuneText ∈ admittedPlaceholders r.spelling ∧
  r.phSeekName ∈ admittedPlaceholders r.spelling ∧ r.phSeekText ∈ admittedPlaceholders r.spelling ∧
  r.rotMin ≤ r.rotMax ∧ r.rotMin ≤ r.rotStart ∧ r.rotStart ≤ r.rotMax ∧ 1 ≤ r.rotStep

end Sys2Proof.Machine
end

