-- ==== Sys2Proof/Certificates/Slice0/Obligations.lean ====
section
/-! DEFINITION. The statements for the provers, one definition each; OBLIGATIONS.json lists them. -/

open Sys2Proof Sys2Proof.Machine

/-! ### Encoding -/

/-- 30_encoding.md sections 1 and 3: decoding the encoding of an operation whose operands fit their fields gives it back, with
every operand at every value. How operands lie in bytes is the model's presentation (log 3). -/
def Obligations.DecodeInvertsEncode : Prop :=
  ∀ i : Instr, i.wf = true → decodeEncoded (encode i) = .ok i

/-- R90: the group type is the top five bits of block B; and 30_encoding.md section 4: it selects the group operation, for
every value of the three words. -/
def Obligations.GroupTypeSelectsOperation : Prop :=
  ∀ b c d : Word,
    (groupType b).toNat = (b >>> 11).toNat ∧ (groupType b).toNat ≤ 31 ∧
    ((b >>> 11).toNat = 0 → decodeGroup b c d = .ps (b.extractLsb' 0 2) d) ∧
    ((b >>> 11).toNat = 4 → decodeGroup b c d = .rt (b.extractLsb' 0 4) c d) ∧
    ((b >>> 11).toNat ≠ 0 → (b >>> 11).toNat ≠ 4 →
      decodeGroup b c d = .ign (BitVec.ofNat 5 (b >>> 11).toNat))

/-- 30_encoding.md section 5 (R97, the spec's decision D21): bits 10:2 of block B and block C do not matter in group type 0,
bits 10:4 of block B do not matter in group type 4, and nothing but the group type matters in any other. -/
def Obligations.IgnoredBitsDoNotMatter : Prop :=
  ∀ b b' c c' d d' : Word, b >>> 11 = b' >>> 11 →
    (b >>> 11 = 0 → b &&& 0x3 = b' &&& 0x3 → decodeGroup b c d = decodeGroup b' c' d) ∧
    (b >>> 11 = 4 → b &&& 0xF = b' &&& 0xF → decodeGroup b c d = decodeGroup b' c d) ∧
    (b >>> 11 ≠ 0 → b >>> 11 ≠ 4 → decodeGroup b c d = decodeGroup b' c' d')

/-- 30_encoding.md sections 3 and 4 (R91, R95; the codes are the spec's decision D1): words of the commands, and the codes that
select nothing, which `step` refuses. -/
def Obligations.CommandCodesDecode : Prop :=
  decode ⟨.command, [0x1, 0x02, 0x07, 0x00]⟩ = .ok (.shCommit 2 7 .done) ∧
  decode ⟨.command, [0x3, 0x05, 0xBE, 0xEF]⟩ = .ok (.shSet 5 0xBEEF) ∧
  decode ⟨.command, [0x4, 0x01]⟩ = .ok (.rdsProcess .fail) ∧
  decode ⟨.command, [0x5, 0x01]⟩ = .ok (.rdsReset .seek) ∧
  decode ⟨.command, [0x6]⟩ = .ok .rdsName ∧
  decode ⟨.command, [0x9, 0x01, 0x05]⟩ = .ok (.rotSet (-5)) ∧
  decode ⟨.interrupt, [0x01, 0x04, 0x1A]⟩ = .ok (.rotEdge 1050 true) ∧
  ∀ (c : Byte) (ops : List Byte) (rest : List Request) (s : State), 9 < c.toNat →
    decode ⟨.command, c :: ops⟩ = .error .badCommand ∧
    (s.inputs = ⟨.command, c :: ops⟩ :: rest → step s = .refused .badCommand)

/-! ### One step -/

/-- 10_state.md section 3 and 20_memory.md section 4: a step runs the operation the next request decodes to, on the state
without that request (the tape is the model's, log 2). A code that selects nothing is refused (R95, R231 in 60_exceptions.md
section 1). That bytes which are no operands are refused, under `badOperandBytes`, is the model's own (log 3: no rule names
it), and so is the idle step (log 2). -/
def Obligations.StepRunsDecodedOperation : Prop :=
  ∀ (s : State) (r : Request) (rest : List Request),
    (∀ i, s.inputs = r :: rest → decode r = .ok i → step s = exec i (s.setInputs rest)) ∧
    (s.inputs = r :: rest → decode r = .error .badCommand → step s = .refused .badCommand) ∧
    (s.inputs = r :: rest → decode r = .error .badOperandBytes → step s = .refused .badOperandBytes) ∧
    (s.inputs = [] → step s = .next s)

/-- 00_scope.md R3 ("which never run on their own") and log 4: a group placed in the shadow is run by the very next step,
inside a tick, with the effect of its group operation; the four registers are distinct. -/
def Obligations.PlacedGroupRunsInsideTick : Prop :=
  ∀ (s : State) (b c d : Word),
    [s.cfg.regStatus, s.cfg.regRdsb, s.cfg.regRdsc, s.cfg.regRdsd].Nodup →
    ∃ t, step (s.placeGroup b c d) = .next t ∧
      exec (decodeGroup b c d).toInstr ((s.placeGroup b c d).setInputs s.inputs) = .next t

/-- 10_state.md R42 (the spec's decision D25) and log 2: a step keeps every parameter and takes one request off the tape. -/
def Obligations.StepKeepsParametersAndConsumesOneRequest : Prop :=
  ∀ s t : State, step s = .next t → t.cfg = s.cfg ∧ t.inputs = s.inputs.tail

/-! ### Which operands are refused -/

/-- 60_exceptions.md section 1 (R225, and R231 by the spec's decisions D15, D17, D18): an operation completes exactly when its
operands are within the contract; nothing else stops it. -/
def Obligations.CompletesExactlyWhenAdmitted : Prop :=
  ∀ (i : Instr) (s : State), admitted s.cfg i = true ↔ ∃ t, exec i s = .next t

/-- 60_exceptions.md section 1 (R231, the spec's decisions D15, D17, D18): each operand outside the contract is refused under
its name; of `SH_SET` the index is tested first, as R116 writes it. -/
def Obligations.OutOfContractOperandsRefusedByName : Prop :=
  ∀ (s : State) (reg val lo hi : Nat) (ack : WriteAnswer) (w : List Byte) (v : Int),
    (15 < reg → exec (.shGet reg) s = .refused .badRegister ∧ exec (.shSet reg val) s = .refused .badRegister) ∧
    (reg ≤ 15 → 0xFFFF < val → exec (.shSet reg val) s = .refused .badWord) ∧
    (lo ≠ 2 ∨ hi ≠ 7 → exec (.shCommit lo hi ack) s = .refused .badCommitRange) ∧
    (w.length ≠ 32 → exec (.shRefresh (.ok w)) s = .refused .badBurstLength ∧
      exec (.rdsProcess (.ok w)) s = .refused .badBurstLength) ∧
    (v < s.cfg.rotMin ∨ s.cfg.rotMax < v → exec (.rotSet v) s = .refused .rotSetRange)

/-! ### The shadow store -/

/-- 40_shadow_store.md SH_REFRESH and 20_memory.md section 5 (R110, R64; the byte order is the spec's decision D4, log 14): wire
word `k` becomes logical register `(0x0A + k) mod 16`, for all sixteen; nothing else changes. -/
def Obligations.RefreshLoadsReorderedBurst : Prop :=
  ∀ (w : List Byte) (s : State), w.length = 32 →
    ∃ t, exec (.shRefresh (.ok w)) s = .next t ∧
      (∀ k, k < 16 → ∃ h l : Byte, w[2 * k]? = some h ∧ w[2 * k + 1]? = some l ∧
        t.sh.toList[(0x0A + k) % 16]? = some (h ++ l)) ∧
      t.accumulator = s.accumulator ∧ t.rotUnit = s.rotUnit ∧ t.cfg = s.cfg ∧ t.inputs = s.inputs ∧
      t.out = {}

/-- R111: a failed read changes nothing and the operation returns no status: it leaves the cells that a successful read of
the same words leaves. Only the event is recorded. -/
def Obligations.FailedRefreshChangesNothing : Prop :=
  ∀ s : State,
    (∃ t, exec (.shRefresh .fail) s = .next t ∧ t.cells = s.cells ∧ t.cfg = s.cfg ∧ t.inputs = s.inputs ∧
      t.out.result = none ∧ t.out.busWrite = none ∧ t.out.events = [.transportReadFail]) ∧
    (∀ (w : List Byte) (t u : State), exec (.shRefresh (.ok w)) s = .next t → t.sh = s.sh →
      exec (.shRefresh .fail) s = .next u → u.cells = t.cells ∧ u.out.result = t.out.result)

/-- R53: the write burst has 12 bytes, registers 0x02 to 0x07 ascending, high byte first; the commit changes no cell. -/
def Obligations.CommitEmitsWriteBlock : Prop :=
  ∀ (ack : WriteAnswer) (s : State),
    ∃ t bytes, exec (.shCommit 0x02 0x07 ack) s = .next t ∧ t.out.busWrite = some bytes ∧ bytes.length = 12 ∧
      (∀ j, j < 6 → ∃ w, s.sh.toList[2 + j]? = some w ∧
        bytes[2 * j]? = some (w.extractLsb' 8 8) ∧ bytes[2 * j + 1]? = some (w.extractLsb' 0 8)) ∧
      t.cells = s.cells ∧ t.cfg = s.cfg ∧ t.inputs = s.inputs ∧ t.out.result = none

/-- 40_shadow_store.md SH_COMMIT (R113): a write error that the transport reports is an event and nothing else. That the report is
an operand, and that the burst is emitted in both cases, is the model's deduction (log 13). -/
def Obligations.ReportedWriteErrorIsOnlyAnEvent : Prop :=
  ∀ s : State, ∃ t u, exec (.shCommit 0x02 0x07 .done) s = .next t ∧ exec (.shCommit 0x02 0x07 .fail) s = .next u ∧
    t.out.events = [] ∧ u.out.events = [.transportWriteFail] ∧ u.cells = t.cells ∧ u.out.busWrite = t.out.busWrite

/-- 40_shadow_store.md SH_GET (R115): the word of the shadow at the index is returned; nothing changes. -/
def Obligations.GetReturnsShadowWord : Prop :=
  ∀ (reg : Nat) (s : State), reg ≤ 15 →
    ∃ t w, exec (.shGet reg) s = .next t ∧ s.sh.toList[reg]? = some w ∧ t.out.result = some (.word w) ∧
      t.cells = s.cells ∧ t.cfg = s.cfg ∧ t.inputs = s.inputs ∧ t.out.busWrite = none ∧ t.out.events = []

/-- 40_shadow_store.md SH_SET (R116): the word at the index becomes the value, every other word and cell keeps its own. -/
def Obligations.SetWritesOneShadowWord : Prop :=
  ∀ (reg val : Nat) (s : State), reg ≤ 15 → val ≤ 0xFFFF →
    ∃ t, exec (.shSet reg val) s = .next t ∧
      (∃ w, t.sh.toList[reg]? = some w ∧ w.toNat = val) ∧
      (∀ r, r ≠ reg → t.sh.toList[r]? = s.sh.toList[r]?) ∧
      t.accumulator = s.accumulator ∧ t.rotUnit = s.rotUnit ∧ t.cfg = s.cfg ∧ t.inputs = s.inputs ∧ t.out = {}

/-- 40_shadow_store.md R118 (an inference the spec marks "derived: from rules R110 and R116"): a set that is not committed
before a successful refresh leaves no trace in the cells. -/
def Obligations.RefreshDiscardsUncommittedSet : Prop :=
  ∀ (reg val : Nat) (w : List Byte) (s t : State), w.length = 32 → exec (.shSet reg val) s = .next t →
    ∃ u v, exec (.shRefresh (.ok w)) t = .next u ∧ exec (.shRefresh (.ok w)) s = .next v ∧ u.cells = v.cells

/-- 10_state.md section 4 (R24): the data-ready flag is bit 15 of the status register, it is 0 at reset, and no operation
changes it but a successful bus read and an `SH_SET` to that register. -/
def Obligations.DataReadyFlagChangesOnlyByReadOrSet : Prop :=
  (∀ c : Config, (State.ofConfig c).sh[c.regStatus].getLsbD 15 = false) ∧
  ∀ (i : Instr) (s t : State), exec i s = .next t →
    t.sh[s.cfg.regStatus].getLsbD 15 ≠ s.sh[s.cfg.regStatus].getLsbD 15 →
    (∃ w, i = .shRefresh (.ok w)) ∨ (∃ w, i = .rdsProcess (.ok w)) ∨ (∃ val, i = .shSet s.cfg.regStatus.val val)

/-! ### The decoder tick -/

/-- R166: the tick never stops but at a burst of the wrong length, which is refused; it returns no error, nor anything else. -/
def Obligations.TickNeverStopsOnAnyWord : Prop :=
  ∀ (bus : BusAnswer) (s : State),
    (bus.wf = true ∧ ∃ t, exec (.rdsProcess bus) s = .next t ∧ t.out.result = none) ∨
    (∃ w, bus = .ok w ∧ w.length ≠ 32 ∧ exec (.rdsProcess bus) s = .refused .badBurstLength)

/-- 42_rds_process.md section 1 (R153): with the data-ready bit clear after the refresh, the tick completes, the buffers and the strings are as before, and
the shadow is the refreshed one; and in every tick the shadow is just the refreshed one, so the flag is never cleared. -/
def Obligations.DataNotReadyLeavesAccumulator : Prop :=
  ∀ (bus : BusAnswer) (s u : State), exec (.shRefresh bus) s = .next u →
    (u.sh[s.cfg.regStatus].getLsbD 15 = false →
      ∃ t, exec (.rdsProcess bus) s = .next t ∧ t.accumulator = s.accumulator ∧ t.cells = u.cells) ∧
    (∀ t, exec (.rdsProcess bus) s = .next t → t.sh = u.sh)

/-- 42_rds_process.md section 1 (R150 to R155; going on after a failed read is the spec's decision D6, a parameter): with the
data-ready bit set after the refresh, the tick completes with the effect of the group operation that block B selects, the
events of the refresh before those of the group. -/
def Obligations.DataReadyRunsSelectedGroup : Prop :=
  ∀ (bus : BusAnswer) (s u : State), exec (.shRefresh bus) s = .next u →
    (bus ≠ .fail ∨ s.cfg.stalePolicy = .proceed) → u.sh[s.cfg.regStatus].getLsbD 15 = true →
    ∃ t v, exec (.rdsProcess bus) s = .next t ∧
      exec (decodeGroup u.sh[s.cfg.regRdsb] u.sh[s.cfg.regRdsc] u.sh[s.cfg.regRdsd]).toInstr u = .next v ∧
      t.cells = v.cells ∧ t.cfg = s.cfg ∧ t.inputs = s.inputs ∧
      t.out.result = none ∧ t.out.busWrite = none ∧ t.out.events = u.out.events ++ v.out.events

/-- 00_scope.md R9: under `STALE_POLICY = SKIP` a failed read ends the tick; no cell changes. -/
def Obligations.SkipPolicyEndsTickAtFailedRead : Prop :=
  ∀ s : State, s.cfg.stalePolicy = .skip →
    ∃ t, exec (.rdsProcess .fail) s = .next t ∧ t.cells = s.cells ∧ t.cfg = s.cfg ∧ t.inputs = s.inputs ∧
      t.out.events = [.transportReadFail]

/-- 30_encoding.md section 5 (R97, the spec's decision D21): two ticks, both on a read or both on a failed read, whose
refreshed shadows differ in bits 14:0 of the status word alone leave the same accumulator and give the same output, when the
status register is none of the three block registers. -/
def Obligations.OtherStatusBitsDoNotMatter : Prop :=
  ∀ (bus bus' : BusAnswer) (s s' u u' t t' : State), (bus = .fail ↔ bus' = .fail) →
    s'.cfg = s.cfg → s'.accumulator = s.accumulator →
    exec (.shRefresh bus) s = .next u → exec (.shRefresh bus') s' = .next u' →
    (∀ r : Fin 16, r ≠ s.cfg.regStatus → u'.sh[r] = u.sh[r]) →
    u'.sh[s.cfg.regStatus].getLsbD 15 = u.sh[s.cfg.regStatus].getLsbD 15 →
    s.cfg.regStatus ≠ s.cfg.regRdsb → s.cfg.regStatus ≠ s.cfg.regRdsc → s.cfg.regStatus ≠ s.cfg.regRdsd →
    exec (.rdsProcess bus) s = .next t → exec (.rdsProcess bus') s' = .next t' →
    t'.accumulator = t.accumulator ∧ t'.out = t.out

/-! ### The group operations -/

/-- 42_rds_process.md section 2 (R156; when the string is recomputed, and that it is not trimmed, are the spec's decisions D7 and
D8, log 20): for every block B of group type 0, the two characters of block D go to positions `i` and `i + 1`,
`i = (B & 3) * 2`, each exactly if it is 32 to 126; the string is the join of the buffer if at least one was written, else
as before; one event for each dropped byte; nothing else changes. A tick whose refreshed shadow
is ready and holds the group does just that, unless it is a failed read under `SKIP` (R150, R152; going on after a failed read
is the spec's decision D6, a parameter, log 12). -/
def Obligations.NameGroupWritesItsSlot : Prop :=
  ∀ (b c d : Word) (s : State), b &&& 0xF800 = 0 →
    decodeGroup b c d = .ps (b.extractLsb' 0 2) d ∧
    ∃ t, exec (.rdsPs (b.extractLsb' 0 2) d) s = .next t ∧
      (∀ j : Fin 8, t.ps[j] =
        if j.val = (b &&& 3).toNat * 2 ∧ 32 ≤ (d >>> 8).toNat ∧ (d >>> 8).toNat ≤ 126 then d.extractLsb' 8 8
        else if j.val = (b &&& 3).toNat * 2 + 1 ∧ 32 ≤ (d &&& 0xFF).toNat ∧ (d &&& 0xFF).toNat ≤ 126 then
          d.extractLsb' 0 8
        else s.ps[j]) ∧
      t.psStr =
        (if (32 ≤ (d >>> 8).toNat ∧ (d >>> 8).toNat ≤ 126) ∨ (32 ≤ (d &&& 0xFF).toNat ∧ (d &&& 0xFF).toNat ≤ 126)
         then t.ps.toList.map BitVec.toNat else s.psStr) ∧
      t.out.events =
        (if 32 ≤ (d >>> 8).toNat ∧ (d >>> 8).toNat ≤ 126 then [] else [.charDropped]) ++
        (if 32 ≤ (d &&& 0xFF).toNat ∧ (d &&& 0xFF).toNat ≤ 126 then [] else [.charDropped]) ∧
      t.sh = s.sh ∧ t.rt = s.rt ∧ t.rtStr = s.rtStr ∧ t.rotUnit = s.rotUnit ∧ t.cfg = s.cfg ∧
      t.inputs = s.inputs ∧ t.out.result = none ∧ t.out.busWrite = none ∧
      (∀ (bus : BusAnswer) (s₀ : State), exec (.shRefresh bus) s₀ = .next s →
        (bus ≠ .fail ∨ s₀.cfg.stalePolicy = .proceed) → s.sh[s.cfg.regStatus].getLsbD 15 = true →
        s.sh[s.cfg.regRdsb] = b → s.sh[s.cfg.regRdsc] = c → s.sh[s.cfg.regRdsd] = d →
        ∃ u, exec (.rdsProcess bus) s₀ = .next u ∧ u.cells = t.cells)

/-- 42_rds_process.md section 3 (R159; when the string is recomputed and how it is trimmed are the spec's decisions D7 and D8,
log 20): for every block B of group type 4, the four characters of blocks C and D go to positions `i` to `i + 3`,
`i = (B & 15) * 4`, each exactly if it is 32 to 126; the string is the stripped join if at least one was written, else as
before; one event for each dropped byte; nothing else changes. A tick whose refreshed shadow
is ready and holds the group does just that, unless it is a failed read under `SKIP` (R150, R152; going on after a failed read
is the spec's decision D6, a parameter, log 12). -/
def Obligations.TextGroupWritesItsSlot : Prop :=
  ∀ (b c d : Word) (s : State), b &&& 0xF800 = 0x2000 →
    decodeGroup b c d = .rt (b.extractLsb' 0 4) c d ∧
    ∃ t, exec (.rdsRt (b.extractLsb' 0 4) c d) s = .next t ∧
      (∀ (k : Fin 4) (ch : Byte),
        [c.extractLsb' 8 8, c.extractLsb' 0 8, d.extractLsb' 8 8, d.extractLsb' 0 8][k]? = some ch →
        t.rt.toList[(b &&& 15).toNat * 4 + k.val]? =
          if 32 ≤ ch.toNat ∧ ch.toNat ≤ 126 then some ch else s.rt.toList[(b &&& 15).toNat * 4 + k.val]?) ∧
      (∀ j, (j < (b &&& 15).toNat * 4 ∨ (b &&& 15).toNat * 4 + 4 ≤ j) → t.rt.toList[j]? = s.rt.toList[j]?) ∧
      t.rtStr =
        (if ∃ ch ∈ [c.extractLsb' 8 8, c.extractLsb' 0 8, d.extractLsb' 8 8, d.extractLsb' 0 8],
              32 ≤ ch.toNat ∧ ch.toNat ≤ 126
         then strip (t.rt.toList.map BitVec.toNat) else s.rtStr) ∧
      t.out.events =
        (if 32 ≤ (c >>> 8).toNat ∧ (c >>> 8).toNat ≤ 126 then [] else [.charDropped]) ++
        (if 32 ≤ (c &&& 0xFF).toNat ∧ (c &&& 0xFF).toNat ≤ 126 then [] else [.charDropped]) ++
        (if 32 ≤ (d >>> 8).toNat ∧ (d >>> 8).toNat ≤ 126 then [] else [.charDropped]) ++
        (if 32 ≤ (d &&& 0xFF).toNat ∧ (d &&& 0xFF).toNat ≤ 126 then [] else [.charDropped]) ∧
      t.sh = s.sh ∧ t.ps = s.ps ∧ t.psStr = s.psStr ∧ t.rotUnit = s.rotUnit ∧ t.cfg = s.cfg ∧
      t.inputs = s.inputs ∧ t.out.result = none ∧ t.out.busWrite = none ∧
      (∀ (bus : BusAnswer) (s₀ : State), exec (.shRefresh bus) s₀ = .next s →
        (bus ≠ .fail ∨ s₀.cfg.stalePolicy = .proceed) → s.sh[s.cfg.regStatus].getLsbD 15 = true →
        s.sh[s.cfg.regRdsb] = b → s.sh[s.cfg.regRdsc] = c → s.sh[s.cfg.regRdsd] = d →
        ∃ u, exec (.rdsProcess bus) s₀ = .next u ∧ u.cells = t.cells)

/-- 00_scope.md R12: stripping removes every leading and every trailing space and nothing else. -/
def Obligations.StripRemovesOuterSpacesOnly : Prop :=
  ∀ s : Str, ∃ m n : Nat, s = List.replicate m 0x20 ++ strip s ++ List.replicate n 0x20 ∧
    (strip s).head? ≠ some 0x20 ∧ (strip s).getLast? ≠ some 0x20

/-- R162: for every block B of another group type, the operation completes, no cell changes, and the event carries the type.
A tick whose refreshed shadow is ready and holds the group does just that, unless it is a failed read under `SKIP` (R150,
R152; going on after a failed read is the spec's decision D6, a parameter, log 12). -/
def Obligations.IgnoredGroupChangesNoCell : Prop :=
  ∀ (b c d : Word) (s : State), b &&& 0xF800 ≠ 0 → b &&& 0xF800 ≠ 0x2000 →
    decodeGroup b c d = .ign (b.extractLsb' 11 5) ∧
    ∃ t, exec (.rdsIgn (b.extractLsb' 11 5)) s = .next t ∧ t.cells = s.cells ∧ t.cfg = s.cfg ∧
      t.inputs = s.inputs ∧ t.out.events = [.groupIgnored (b.extractLsb' 11 5)] ∧
      t.out.result = none ∧ t.out.busWrite = none ∧
      (∀ (bus : BusAnswer) (s₀ : State), exec (.shRefresh bus) s₀ = .next s →
        (bus ≠ .fail ∨ s₀.cfg.stalePolicy = .proceed) → s.sh[s.cfg.regStatus].getLsbD 15 = true →
        s.sh[s.cfg.regRdsb] = b → s.sh[s.cfg.regRdsc] = c → s.sh[s.cfg.regRdsd] = d →
        ∃ u, exec (.rdsProcess bus) s₀ = .next u ∧ u.cells = t.cells)

/-- R54: a tick changes no position but the slot that block B of the refreshed shadow addresses: `i` and `i + 1` of the name
buffer, `i` in 0, 2, 4, 6; or `i` to `i + 3` of the text buffer, `i` in 0, 4, ..., 60; none if the flag is clear or the group
is of another type. A retune/seek reset sets every position. -/
def Obligations.TickTouchesOneAlignedSlot : Prop :=
  (∀ (bus : BusAnswer) (s u t : State), exec (.shRefresh bus) s = .next u → exec (.rdsProcess bus) s = .next t →
    (u.sh[s.cfg.regStatus].getLsbD 15 = false → t.ps = s.ps ∧ t.rt = s.rt) ∧
    match decodeGroup u.sh[s.cfg.regRdsb] u.sh[s.cfg.regRdsc] u.sh[s.cfg.regRdsd] with
    | .ps seg _ => t.rt = s.rt ∧ ∀ j : Fin 8, j.val ≠ psIndex seg → j.val ≠ psIndex seg + 1 → t.ps[j] = s.ps[j]
    | .rt seg _ _ => t.ps = s.ps ∧ ∀ j : Fin 64, (j.val < rtIndex seg ∨ rtIndex seg + 4 ≤ j.val) → t.rt[j] = s.rt[j]
    | .ign _ => t.ps = s.ps ∧ t.rt = s.rt) ∧
  (∀ seg : BitVec 2, psIndex seg ∈ [0, 2, 4, 6]) ∧
  (∀ seg : BitVec 4, rtIndex seg % 4 = 0 ∧ rtIndex seg ≤ 60) ∧
  (∀ (cause : Cause) (s t : State), exec (.rdsReset cause) s = .next t →
    (∀ j : Fin 8, t.ps[j] = 0x20) ∧ (∀ j : Fin 64, t.rt[j] = 0x20))

/-- R164: a station-name group changes no position but the two of its slot, a radio-text group no position but the four. -/
def Obligations.GroupsAreIsolatedToSlots : Prop :=
  (∀ (seg : BitVec 2) (d : Word) (s t : State), exec (.rdsPs seg d) s = .next t →
    ∀ j : Fin 8, j.val ≠ seg.toNat * 2 → j.val ≠ seg.toNat * 2 + 1 → t.ps[j] = s.ps[j]) ∧
  (∀ (seg : BitVec 4) (c d : Word) (s t : State), exec (.rdsRt seg c d) s = .next t →
    ∀ j : Fin 64, (j.val < seg.toNat * 4 ∨ seg.toNat * 4 + 4 ≤ j.val) → t.rt[j] = s.rt[j]) ∧
  (∀ (d : Word) (s t : State), 32 ≤ (d.extractLsb' 8 8).toNat → (d.extractLsb' 8 8).toNat ≤ 126 →
    32 ≤ (d.extractLsb' 0 8).toNat → (d.extractLsb' 0 8).toNat ≤ 126 → exec (.rdsPs 1 d) s = .next t →
    t.ps[2] = d.extractLsb' 8 8 ∧ t.ps[3] = d.extractLsb' 0 8)

/-- 42_rds_process.md section 5 (R163, an inference the spec marks "derived"): a group operation run again changes no cell
again, and a tick on a burst followed by a tick on the same burst, or on a failed read, equals the one tick. -/
def Obligations.RepeatedGroupEqualsOne : Prop :=
  (∀ (g : Group) (s t : State), exec g.toInstr s = .next t →
    ∃ u, exec g.toInstr t = .next u ∧ u.cells = t.cells) ∧
  (∀ (w : List Byte) (s t : State), exec (.rdsProcess (.ok w)) s = .next t →
    (∃ u, exec (.rdsProcess (.ok w)) t = .next u ∧ u.cells = t.cells) ∧
    (∃ u, exec (.rdsProcess .fail) t = .next u ∧ u.cells = t.cells))

/-- 42_rds_process.md section 5 (R165, an inference the spec marks "derived"): two groups on different slots of one buffer, or
on different buffers, leave the same cells in either order. -/
def Obligations.GroupsOnDifferentSlotsCommute : Prop :=
  ∀ (i j : Instr) (s s₁ s₁₂ s₂ s₂₁ : State),
    ((∃ (a b : BitVec 2) (d d' : Word), a ≠ b ∧ i = .rdsPs a d ∧ j = .rdsPs b d') ∨
     (∃ (a b : BitVec 4) (c d c' d' : Word), a ≠ b ∧ i = .rdsRt a c d ∧ j = .rdsRt b c' d') ∨
     (∃ (a : BitVec 2) (b : BitVec 4) (d c' d' : Word), i = .rdsPs a d ∧ j = .rdsRt b c' d')) →
    exec i s = .next s₁ → exec j s₁ = .next s₁₂ → exec j s = .next s₂ → exec i s₂ = .next s₂₁ →
    s₁₂.cells = s₂₁.cells

/-! ### The retune/seek reset and the accessors -/

/-- 43_rds_reset_accessors.md RDS_RESET (R180, R181; which text goes where is the parameter `PH`): both buffers become spaces,
each string becomes one of the three placeholders, the one `PH` gives for the cause; shadow and rotary cells stay. -/
def Obligations.ResetBlanksAccumulator : Prop :=
  ∀ (cause : Cause) (s : State),
    ∃ t, exec (.rdsReset cause) s = .next t ∧
      (∀ j : Fin 8, t.ps[j] = 0x20) ∧ (∀ j : Fin 64, t.rt[j] = 0x20) ∧
      t.psStr = ph s.cfg cause .name ∧ t.rtStr = ph s.cfg cause .text ∧
      t.psStr ∈ admittedPlaceholders s.cfg.spelling ∧ t.rtStr ∈ admittedPlaceholders s.cfg.spelling ∧
      t.sh = s.sh ∧ t.rotUnit = s.rotUnit ∧ t.cfg = s.cfg ∧ t.inputs = s.inputs ∧ t.out = {}

/-- 43_rds_reset_accessors.md RDS_NAME and RDS_TEXT (R183, R184; the strings before any reset or group are the spec's decision
D11, log 6): the accessors return the cached strings and change no cell; a string that comes from the name buffer has 8
code points, one that comes from the text buffer at most 64 and no space at either end. -/
def Obligations.AccessorsReturnCachedStrings : Prop :=
  (∀ s : State, decode ⟨.command, [0x6]⟩ = .ok .rdsName ∧
    ∃ t, exec .rdsName s = .next t ∧ t.out.result = some (.str s.psStr) ∧ t.cells = s.cells ∧ t.cfg = s.cfg ∧
      t.inputs = s.inputs ∧ t.out.busWrite = none ∧ t.out.events = []) ∧
  (∀ s : State, decode ⟨.command, [0x7]⟩ = .ok .rdsText ∧
    ∃ t, exec .rdsText s = .next t ∧ t.out.result = some (.str s.rtStr) ∧ t.cells = s.cells ∧ t.cfg = s.cfg ∧
      t.inputs = s.inputs ∧ t.out.busWrite = none ∧ t.out.events = []) ∧
  (∀ (i : Instr) (s t : State), exec i s = .next t → t.ps ≠ s.ps → (∀ cause, i ≠ .rdsReset cause) →
    t.psStr = t.ps.toList.map BitVec.toNat ∧ t.psStr.length = 8) ∧
  (∀ (i : Instr) (s t : State), exec i s = .next t → t.rt ≠ s.rt → (∀ cause, i ≠ .rdsReset cause) →
    t.rtStr = strip (t.rt.toList.map BitVec.toNat) ∧ t.rtStr.length ≤ 64 ∧
      t.rtStr.head? ≠ some 0x20 ∧ t.rtStr.getLast? ≠ some 0x20) ∧
  (∀ c : Config, ∃ t u, exec .rdsName (State.ofConfig c) = .next t ∧ t.out.result = some (.str []) ∧
    exec .rdsText (State.ofConfig c) = .next u ∧ u.out.result = some (.str []))

/-- 43_rds_reset_accessors.md Properties (R185, an inference the spec marks "derived"): after an accessor every operation
answers as it would have without it. -/
def Obligations.AccessorsAreInvisible : Prop :=
  ∀ (a i : Instr) (s t : State), a = .rdsName ∨ a = .rdsText → exec a s = .next t → exec i t = exec i s

/-- 60_exceptions.md section 1 (R232, an inference the spec marks "derived"): what an operation returned, emitted or recorded as
an event is read by no later operation. -/
def Obligations.OutputsAndEventsAreNeverRead : Prop :=
  ∀ (i : Instr) (s : State) (o : Output), exec i (s.setOut o) = exec i s

/-- 20_memory.md section 6 (R70, the spec's decision D23; R158, R161, decisions D7 and D8, log 20): a group that carries a printable
character writes it, also over an equal one, and the very next accessor returns the join, or stripped join, of the buffer
that holds it. -/
def Obligations.WrittenCharacterShowsAtOnce : Prop :=
  (∀ (seg : BitVec 2) (d : Word) (s : State),
    (∃ ch ∈ [d.extractLsb' 8 8, d.extractLsb' 0 8], 32 ≤ ch.toNat ∧ ch.toNat ≤ 126) →
    ∃ t u, exec (.rdsPs seg d) s = .next t ∧ exec .rdsName t = .next u ∧
      u.out.result = some (.str (t.ps.toList.map BitVec.toNat)) ∧
      ∀ (k : Fin 2) (ch : Byte), [d.extractLsb' 8 8, d.extractLsb' 0 8][k]? = some ch → 32 ≤ ch.toNat → ch.toNat ≤ 126 →
        t.ps.toList[seg.toNat * 2 + k.val]? = some ch) ∧
  (∀ (seg : BitVec 4) (c d : Word) (s : State),
    (∃ ch ∈ [c.extractLsb' 8 8, c.extractLsb' 0 8, d.extractLsb' 8 8, d.extractLsb' 0 8],
      32 ≤ ch.toNat ∧ ch.toNat ≤ 126) →
    ∃ t u, exec (.rdsRt seg c d) s = .next t ∧ exec .rdsText t = .next u ∧
      u.out.result = some (.str (strip (t.rt.toList.map BitVec.toNat))) ∧
      ∀ (k : Fin 4) (ch : Byte),
        [c.extractLsb' 8 8, c.extractLsb' 0 8, d.extractLsb' 8 8, d.extractLsb' 0 8][k]? = some ch →
        32 ≤ ch.toNat → ch.toNat ≤ 126 → t.rt.toList[seg.toNat * 4 + k.val]? = some ch)

/-- 70_reset_and_hazards.md section 3 (R270, an inference the spec marks "derived"): after a retune/seek reset, a tick whose read
fails writes the stale group into the blank buffers under `PROCEED`, and does nothing to the cells under `SKIP`. -/
def Obligations.StaleGroupSurvivesReset : Prop :=
  ∀ (cause : Cause) (s t : State), exec (.rdsReset cause) s = .next t →
    s.sh[s.cfg.regStatus].getLsbD 15 = true →
    (s.cfg.stalePolicy = .proceed →
      ∃ u v, exec (.rdsProcess .fail) t = .next u ∧
        exec (decodeGroup s.sh[s.cfg.regRdsb] s.sh[s.cfg.regRdsc] s.sh[s.cfg.regRdsd]).toInstr t = .next v ∧
        u.cells = v.cells) ∧
    (s.cfg.stalePolicy = .skip → ∃ u, exec (.rdsProcess .fail) t = .next u ∧ u.cells = t.cells)

/-- 70_reset_and_hazards.md section 3 (R275, an inference the spec marks "derived"): no content of the name buffer joins to the
placeholder of either cause, whatever `PH` and its spelling are (log 11); so `RDS_NAME` after a group that wrote never
returns what it returns after a reset. -/
def Obligations.DecodedNameIsNeverAPlaceholder : Prop :=
  (∀ (s : State) (cause : Cause), join s.ps ≠ ph s.cfg cause .name) ∧
  ∀ (seg : BitVec 2) (d : Word) (cause : Cause) (s t u a b : State),
    exec (.rdsPs seg d) s = .next t →
    (∃ ch ∈ [d.extractLsb' 8 8, d.extractLsb' 0 8], 32 ≤ ch.toNat ∧ ch.toNat ≤ 126) → exec .rdsName t = .next a →
    exec (.rdsReset cause) t = .next u → exec .rdsName u = .next b → a.out.result ≠ b.out.result

/-! ### The rotary unit -/

/-- R191: an edge less than 50 ms after the last accepted one keeps all three cells, one at 50 ms or more is accepted; a train
of discarded edges, however long, does not extend the window. -/
def Obligations.DebounceWindowIsNotExtended : Prop :=
  (∀ (now : Nat) (b : Bool) (s : State), (now : Int) - (s.rotT : Int) < 50 →
    ∃ t, exec (.rotEdge now b) s = .next t ∧ t.cells = s.cells ∧ t.cfg = s.cfg ∧ t.inputs = s.inputs ∧
      t.out.events = [.edgeDiscarded]) ∧
  (∀ (es : List (Nat × Bool)) (s : State), (∀ e ∈ es, (e.1 : Int) - (s.rotT : Int) < 50) →
    ∃ u, execAll (es.map fun e => .rotEdge e.1 e.2) s = .next u ∧ u.cells = s.cells ∧
      ∀ (now : Nat) (b : Bool), s.rotT + 50 ≤ now →
        ∃ t, exec (.rotEdge now b) u = .next t ∧ t.rotT = now ∧ t.out.events = [])

/-- R193: an accepted edge stores `clamp(ROT_VAL ± ROT_STEP, ROT_MIN, ROT_MAX)`, the sign by the level and the polarity (R192);
the result is in the range and at a limit it stays there; the RDS unit, the parameters and the tape stay. -/
def Obligations.AcceptedEdgeStepsAndClamps : Prop :=
  ∀ (now : Nat) (b : Bool) (s : State), 50 ≤ (now : Int) - (s.rotT : Int) →
    ∃ t, exec (.rotEdge now b) s = .next t ∧
      t.rotVal = max s.cfg.rotMin (min s.cfg.rotMax
        (if (b = true ∧ s.cfg.rotPol = .highDec) ∨ (b = false ∧ s.cfg.rotPol = .highInc)
         then s.rotVal - s.cfg.rotStep else s.rotVal + s.cfg.rotStep)) ∧
      t.rdsUnit = s.rdsUnit ∧ t.cfg = s.cfg ∧ t.inputs = s.inputs ∧ t.out = {} ∧
      (s.cfg.rotMin ≤ s.cfg.rotMax → s.cfg.rotMin ≤ t.rotVal ∧ t.rotVal ≤ s.cfg.rotMax) ∧
      (s.cfg.WF → s.rotVal = s.cfg.rotMax →
        ¬ ((b = true ∧ s.cfg.rotPol = .highDec) ∨ (b = false ∧ s.cfg.rotPol = .highInc)) →
        t.rotVal = s.cfg.rotMax) ∧
      (s.cfg.WF → s.rotVal = s.cfg.rotMin →
        ((b = true ∧ s.cfg.rotPol = .highDec) ∨ (b = false ∧ s.cfg.rotPol = .highInc)) →
        t.rotVal = s.cfg.rotMin)

/-- 44_rotary.md ROT_EDGE (R194; storing the level on an accepted edge alone is the spec's decision D16): an accepted edge records
its time and level, also when the clamp keeps the value; a discarded one keeps both. -/
def Obligations.AcceptedEdgeRecordsTimeAndLevel : Prop :=
  ∀ (now : Nat) (b : Bool) (s : State), ∃ t, exec (.rotEdge now b) s = .next t ∧
    (50 ≤ (now : Int) - (s.rotT : Int) → t.rotT = now ∧ t.rotB = b) ∧
    ((now : Int) - (s.rotT : Int) < 50 → t.rotT = s.rotT ∧ t.rotB = s.rotB)

/-- 44_rotary.md Properties (R202, an inference the spec marks "derived"): over a sequence without `ROT_SET` the value moves by
at most `ROT_STEP` for each accepted edge. -/
def Obligations.ValueMovesAtMostOneStepPerAcceptedEdge : Prop :=
  ∀ (is : List Instr) (s t : State), s.cfg.WF → RotaryInv s → (∀ v, Instr.rotSet v ∉ is) →
    execAll is s = .next t →
    t.rotVal - s.rotVal ≤ acceptedEdges is s.rotT * s.cfg.rotStep ∧
    s.rotVal - t.rotVal ≤ acceptedEdges is s.rotT * s.cfg.rotStep

/-- R195: the value is returned and nothing changes, so two reads with no edge between agree; it is in the range wherever R38
holds. -/
def Obligations.GetValueReturnsRotaryValue : Prop :=
  ∀ s : State, decode ⟨.command, [0x8]⟩ = .ok .rotGet ∧
    ∃ t u, exec .rotGet s = .next t ∧ t.out.result = some (.int s.rotVal) ∧ t.cells = s.cells ∧ t.cfg = s.cfg ∧
      t.inputs = s.inputs ∧ t.out.busWrite = none ∧ t.out.events = [] ∧
      exec .rotGet t = .next u ∧ u.out.result = t.out.result ∧
      (RotaryInv s → ∃ v, t.out.result = some (.int v) ∧ s.cfg.rotMin ≤ v ∧ v ≤ s.cfg.rotMax)

/-- 44_rotary.md ROT_SET (R196; the range is the spec's decision D15): a value in the range is stored, the timestamp and the
level are not touched; an edge before it leaves no trace in the value (R272). -/
def Obligations.SetValueStoresOnlyTheValue : Prop :=
  ∀ (v : Int) (s : State), s.cfg.rotMin ≤ v → v ≤ s.cfg.rotMax →
    (∃ t, exec (.rotSet v) s = .next t ∧ t.rotVal = v ∧ t.rotT = s.rotT ∧ t.rotB = s.rotB ∧
      t.rdsUnit = s.rdsUnit ∧ t.cfg = s.cfg ∧ t.inputs = s.inputs ∧ t.out = {}) ∧
    (∀ (now : Nat) (b : Bool) (u : State), exec (.rotEdge now b) s = .next u →
      ∃ t, exec (.rotSet v) u = .next t ∧ t.rotVal = v ∧ t.rotT = u.rotT)

/-! ### The whole machine -/

/-- 10_state.md section 6 (R30, R33, R38, inferences the spec marks "derived"): every step keeps the invariant: buffers
printable, each string the join of its buffer or a reset's beside a blank buffer, the rotary value in its range. -/
def Obligations.StepKeepsInvariant : Prop :=
  ∀ s t : State, BlockInv s → step s = .next t → BlockInv t

/-- 10_state.md section 6: an instance that powers up meets the invariant, whatever its configuration. -/
def Obligations.PowerOnEstablishesInvariant : Prop :=
  ∀ (r : RawConfig) (t : State), powerOn r = .next t → BlockInv t

/-- 10_state.md section 6: the machine after reset meets the invariant (its rotary numbers are the model's choice, log 8). -/
def Obligations.ResetMeetsInvariant : Prop := BlockInv State.reset

/-- 10_state.md section 6 (R34, an inference the spec marks "derived"): where the invariant holds, a name string is a reset's or
8 code points in 32 to 126, a text string a reset's or at most 64 in 32 to 126 with no space at either end. -/
def Obligations.StringsHaveTheirShapes : Prop :=
  ∀ s : State, BlockInv s →
    (Placed s.cfg .name s.psStr ∨ (s.psStr.length = 8 ∧ ∀ c ∈ s.psStr, 32 ≤ c ∧ c ≤ 126)) ∧
    (Placed s.cfg .text s.rtStr ∨ (s.rtStr.length ≤ 64 ∧ (∀ c ∈ s.rtStr, 32 ≤ c ∧ c ≤ 126) ∧
      s.rtStr.head? ≠ some 0x20 ∧ s.rtStr.getLast? ≠ some 0x20))

/-- 70_reset_and_hazards.md sections 1 and 2 (R260, R262; the shadow's zeros and the empty strings are the spec's decisions D3
and D11, log 5 and log 6): the reset state of an instance, and the tick on it with a failed read changes no cell. -/
def Obligations.ResetStateIsAsGiven : Prop :=
  ∀ c : Config,
    (∀ r : Fin 16, (State.ofConfig c).sh[r] = 0) ∧ (∀ j : Fin 8, (State.ofConfig c).ps[j] = 0x20) ∧
    (∀ j : Fin 64, (State.ofConfig c).rt[j] = 0x20) ∧ (State.ofConfig c).psStr = [] ∧
    (State.ofConfig c).rtStr = [] ∧ (State.ofConfig c).rotVal = c.rotStart ∧ (State.ofConfig c).rotT = c.t0 ∧
    (State.ofConfig c).cfg = c ∧ State.reset = State.ofConfig Config.standard ∧
    ∃ t, exec (.rdsProcess .fail) (State.ofConfig c) = .next t ∧ t.cells = (State.ofConfig c).cells

/-- 60_exceptions.md section 1 and 44_rotary.md Properties (R204, R231, the spec's decision D26): an instance powers up, with
every parameter as bound, exactly when the premises hold, and is refused `BAD_CONFIG` otherwise. -/
def Obligations.PowerOnChecksConfiguration : Prop :=
  ∀ r : RawConfig,
    (RawConfig.Valid r → ∃ c, powerOn r = .next (State.ofConfig c) ∧
      c.regStatus.val = r.regStatus ∧ c.regRdsb.val = r.regRdsb ∧ c.regRdsc.val = r.regRdsc ∧
      c.regRdsd.val = r.regRdsd ∧
      ph c .retune .name = r.phRetuneName ∧ ph c .retune .text = r.phRetuneText ∧
      ph c .seek .name = r.phSeekName ∧ ph c .seek .text = r.phSeekText ∧
      c.rotMin = r.rotMin ∧ c.rotMax = r.rotMax ∧ c.rotStep = r.rotStep ∧ c.rotStart = r.rotStart ∧
      c.rotPol = r.rotPol ∧ c.t0 = r.t0 ∧ c.stalePolicy = r.stalePolicy ∧ c.rotB0 = r.rotB0 ∧
      c.busAddr = r.busAddr ∧ c.spelling = r.spelling) ∧
    (¬ RawConfig.Valid r → powerOn r = .refused .badConfig)

/-- 10_state.md section 10 (R43, R44, inferences the spec marks "derived"): the frame of every operation: the cells it leaves
unchanged, with the parameters and the tape. -/
def Obligations.OperationsKeepTheirFrames : Prop :=
  ∀ (i : Instr) (s t : State), exec i s = .next t →
    t.cfg = s.cfg ∧ t.inputs = s.inputs ∧
    match i with
    | .shRefresh _ => t.accumulator = s.accumulator ∧ t.rotUnit = s.rotUnit
    | .shCommit _ _ _ => t.cells = s.cells
    | .shGet _ => t.cells = s.cells
    | .shSet reg _ => t.accumulator = s.accumulator ∧ t.rotUnit = s.rotUnit ∧
        ∀ r : Fin 16, r.val ≠ reg → t.sh[r] = s.sh[r]
    | .rdsProcess _ => t.rotUnit = s.rotUnit
    | .rdsReset _ => t.sh = s.sh ∧ t.rotUnit = s.rotUnit
    | .rdsName => t.cells = s.cells
    | .rdsText => t.cells = s.cells
    | .rotGet => t.cells = s.cells
    | .rotSet _ => t.rdsUnit = s.rdsUnit ∧ t.rotT = s.rotT ∧ t.rotB = s.rotB
    | .rotEdge _ _ => t.rdsUnit = s.rdsUnit
    | .rdsPs _ _ => t.sh = s.sh ∧ t.rt = s.rt ∧ t.rtStr = s.rtStr ∧ t.rotUnit = s.rotUnit
    | .rdsRt _ _ _ => t.sh = s.sh ∧ t.ps = s.ps ∧ t.psStr = s.psStr ∧ t.rotUnit = s.rotUnit
    | .rdsIgn _ => t.cells = s.cells

/-- 60_exceptions.md section 4 (R242): a step taken from the command port leaves `ROT_T` and `ROT_B`; one taken from the
interrupt port leaves the whole RDS unit and emits nothing on the bus. -/
def Obligations.ContextsWriteOnlyTheirCells : Prop :=
  ∀ (s t : State) (r : Request) (rest : List Request), s.inputs = r :: rest → step s = .next t →
    (r.port = .command → t.rotT = s.rotT ∧ t.rotB = s.rotB) ∧
    (r.port = .interrupt → t.rdsUnit = s.rdsUnit ∧ t.out.busWrite = none ∧ t.out.result = none)

/-- 10_state.md section 10 (R44, an inference the spec marks "derived"): what an operation does to one unit does not depend on
the other unit. -/
def Obligations.UnitsDoNotInterfere : Prop :=
  ∀ (i : Instr) (s s' t t' : State), s'.cfg = s.cfg → exec i s = .next t → exec i s' = .next t' →
    (s'.rotUnit = s.rotUnit → t'.rotUnit = t.rotUnit ∧ (isRotary i = true → t'.out = t.out)) ∧
    (s'.rdsUnit = s.rdsUnit → t'.rdsUnit = t.rdsUnit ∧ (isRotary i = false → t'.out = t.out))

/-- 20_memory.md section 6 (R67, an inference the spec marks "derived"): an edge before or after any main-loop operation but
`ROT_GET` and `ROT_SET` gives the same cells and the same outputs. -/
def Obligations.EdgeCommutesWithMainLoopOperations : Prop :=
  ∀ (i : Instr) (now : Nat) (b : Bool) (s t : State), isRotary i = false → exec i s = .next t →
    ∃ e ei ie, exec (.rotEdge now b) s = .next e ∧ exec i e = .next ei ∧ exec (.rotEdge now b) t = .next ie ∧
      ei.cells = ie.cells ∧ ei.out = t.out ∧ ie.out = e.out

/-! ### Runs -/

/-- 00_scope.md section 6 (R15, the spec's decision D27): a run gives the state after its last operation and one output for each
operation, each that of its operation; and the requests of a tape run as the operations they decode to (the tape is the
model's, log 2). -/
def Obligations.RunReturnsEveryOutput : Prop :=
  (∀ s : State, runOps [] s = .next ⟨s, []⟩) ∧
  (∀ (i : Instr) (is : List Instr) (s : State) (r : Run), runOps (i :: is) s = .next r ↔
    ∃ t q, exec i s = .next t ∧ runOps is t = .next q ∧ r = ⟨q.state, t.out :: q.outs⟩) ∧
  (∀ (rs : List Request) (is : List Instr) (s : State) (r : Run), rs.map decode = is.map .ok →
    runOps is s = .next r →
    runSteps rs.length (s.setInputs rs) = .next ⟨r.state.setInputs [], r.outs⟩ ∧ r.outs.length = rs.length ∧
    execAll is s = .next r.state)

/-- 60_exceptions.md section 1 and 44_rotary.md Properties (R204, R231, the spec's decision D26): a run from reset is that of an
instance whose parameters keep the premises; a configuration that breaks one has no run, it is refused `BAD_CONFIG`, and so is a host's run of the environment. -/
def Obligations.RunsStartFromCheckedConfigurations : Prop :=
  ∀ (r : RawConfig) (rs : List Request),
    (RawConfig.Valid r → ∃ c s, c.WF ∧ powerOn r = .next s ∧ s = State.ofConfig c ∧ BlockInv s ∧
      runFromReset r rs = runSteps rs.length (s.setInputs rs)) ∧
    (¬ RawConfig.Valid r → runFromReset r rs = .refused .badConfig) ∧
    (∀ x, runFromReset r rs = .next x → RawConfig.Valid r) ∧
    (∀ (chip : Env.Chip) (as : List Env.Action) (h : Env.Loop), ¬ RawConfig.Valid r →
      Env.runHost chip r as h = .refused .badConfig)

/-! ### The environment's procedures -/

/-- R133 (environment): `set_volume` completes on a failed or a 32-byte read; the low 4 bits of the audio-config register
become `clamp(v, 0, 15)`, its other bits and every other register stay as refreshed, and one write burst is sent, with the
new word. -/
def Obligations.SetVolumeReplacesLowFourBits : Prop :=
  ∀ (chip : Env.Chip) (v : Int) (bus : BusAnswer) (ack : WriteAnswer) (tuner : Env.Tuner) (s : State), bus.wf = true →
    ∃ u d, exec (.shRefresh bus) s = .next u ∧ Env.setVolume chip v bus ack tuner s = .next d ∧
      ((d.state.sh[Env.writeReg chip.regAudio] &&& 0xF).toNat : Int) = max 0 (min 15 v) ∧
      d.state.sh[Env.writeReg chip.regAudio] >>> 4 = u.sh[Env.writeReg chip.regAudio] >>> 4 ∧
      (∀ r : Fin 16, r ≠ Env.writeReg chip.regAudio → d.state.sh[r] = u.sh[r]) ∧
      d.outs.filterMap (fun o => o.busWrite) = [commitBytes d.state.sh] ∧
      d.state.accumulator = s.accumulator ∧ d.state.rotUnit = s.rotUnit ∧
      d.value = { tuner with volume := d.value.volume } ∧ (d.value.volume.val : Int) = max 0 (min 15 v)

/-- 41_tuner_control_env.md (R131, R139, R140, environment): `set_frequency` on the 100 kHz grid, where no tie arises, completes
on a failed or a 32-byte read; the low 9 bits of the channel register become the channel; two write bursts are sent, the
first with the tune bit (above them) set, the second with it clear and else the same; other bits and registers stay as
refreshed; the accumulator is that of a retune reset. -/
def Obligations.SetFrequencyStoresChannelAndResets : Prop :=
  ∀ (chip : Env.Chip) (tenths : Int) (bus : BusAnswer) (ack₁ ack₂ : WriteAnswer) (s : State), bus.wf = true →
    9 ≤ chip.bitTune.val →
    ∃ u d r, exec (.shRefresh bus) s = .next u ∧
      Env.setFrequency chip ((tenths : Rat) / 10) bus ack₁ ack₂ s = .next d ∧ exec (.rdsReset .retune) s = .next r ∧
      ((d.state.sh[Env.writeReg chip.regChan] &&& 0x1FF).toNat : Int) = max 875 (min 1080 tenths) - 875 ∧
      d.state.sh[Env.writeReg chip.regChan].getLsbD chip.bitTune.val = false ∧
      (∀ k, 9 ≤ k → k ≠ chip.bitTune.val →
        d.state.sh[Env.writeReg chip.regChan].getLsbD k = u.sh[Env.writeReg chip.regChan].getLsbD k) ∧
      (∀ q : Fin 16, q ≠ Env.writeReg chip.regChan → d.state.sh[q] = u.sh[q]) ∧
      (∃ m : Vector Word 16, d.outs.filterMap (fun o => o.busWrite) = [commitBytes m, commitBytes d.state.sh] ∧
        m[Env.writeReg chip.regChan] =
          d.state.sh[Env.writeReg chip.regChan] ||| BitVec.twoPow 16 chip.bitTune.val ∧
        ∀ q : Fin 16, q ≠ Env.writeReg chip.regChan → m[q] = d.state.sh[q]) ∧
      d.state.accumulator = r.accumulator ∧ d.state.rotUnit = s.rotUnit

/-- 41_tuner_control_env.md (R135, R140, environment): a `seek` that came to a frequency sent two write bursts, the first with the
seek-enable bit set, the second with it clear, and its accumulator is the reset one, wherever the reset stands (U27). One that
waits leaves the TunerState, and its accumulator is the old or the reset one. That a waiting `seek` records E7, and that it waits
when the given answers run out, is the model's choice (log 22: R226 calls E7 "not an event but a hang"). -/
def Obligations.SeekSetsThenClearsEnable : Prop :=
  ∀ (chip : Env.Chip) (direction : Int) (place : Env.ResetPlace) (up down : List BusAnswer) (bus : BusAnswer)
    (ack₁ ack₂ : WriteAnswer) (tuner : Env.Tuner) (s r : State) (d : Env.Done (Env.Seek × Env.Tuner)),
    Env.seek chip direction place up down bus ack₁ ack₂ tuner s = .next d → exec (.rdsReset .seek) s = .next r →
    d.state.rotUnit = s.rotUnit ∧
    (∀ f, d.value.1 = .found f → d.state.accumulator = r.accumulator ∧
      ∃ m n : Vector Word 16, d.outs.filterMap (fun o => o.busWrite) = [commitBytes m, commitBytes n] ∧
        m[Env.writeReg chip.regPwr].getLsbD chip.bitSeekEn.val = true ∧
        n[Env.writeReg chip.regPwr].getLsbD chip.bitSeekEn.val = false) ∧
    (d.value.1 = .waiting → d.value.2 = tuner ∧
      (∃ o ∈ d.outs, Event.seekNoResponse ∈ o.events) ∧
      (d.state.accumulator = s.accumulator ∨ d.state.accumulator = r.accumulator))

/-- 70_reset_and_hazards.md section 3 (R279, R135, environment): a `seek` of the main loop that waits suspends the loop, one that
came to a frequency does not, and the action is that `seek`; while the loop is suspended, whatever its procedures would do, no
operation is issued but `ROT_EDGE`: the RDS unit keeps every cell. That the loop stays suspended for good is log 22's. -/
def Obligations.HungSeekStarvesTheDecoder : Prop :=
  (∀ (chip : Env.Chip) (direction : Int) (place : Env.ResetPlace) (up down : List BusAnswer) (bus : BusAnswer)
    (ack₁ ack₂ : WriteAnswer) (w : Env.Surroundings) (s : State) (e : Env.Done (Env.Seek × Env.Tuner)),
    w.loop.suspended = false → Env.seek chip direction place up down bus ack₁ ack₂ w.loop.tuner s = .next e →
    ∃ d, Env.act chip (.seek direction place up down bus ack₁ ack₂) w s = .next d ∧ d.state = e.state ∧
      d.outs = e.outs ∧ d.value.loop.tuner = e.value.2 ∧
      (e.value.1 = .waiting → d.value.loop.suspended = true) ∧
      (∀ f, e.value.1 = .found f → d.value.loop.suspended = false)) ∧
  ∀ (chip : Env.Chip) (as : List Env.Action) (w : Env.Surroundings) (s : State) (d : Env.Done Env.Surroundings),
    w.loop.suspended = true → Env.actAll chip as w s = .next d →
    d.state.rdsUnit = s.rdsUnit ∧ d.value.loop = w.loop ∧ d.outs.length = (as.filter Env.Action.isEdge).length ∧
    (∀ o ∈ d.outs, o.busWrite = none ∧ o.result = none)

/-- 45_main_tick_env.md R218 (the duty towards `ROT_EDGE`, the spec's decision D13): the host's edge at a `now` below the previous
one or below `ROT_T` is refused, under the model's name `clockBackwards` (log 15); every other is the operation `ROT_EDGE`,
also while the loop is suspended. Beside edges the same host may issue any main-loop operation by itself, while no `seek` holds
the loop; it is that operation, and it leaves what surrounds the block; a refused one is refused as the operation is. -/
def Obligations.HostKeepsItsClockDuty : Prop :=
  ∀ (chip : Env.Chip) (now : Nat) (b : Bool) (w : Env.Surroundings) (s : State),
    ((now < s.rotT ∨ ∃ last, w.lastEdge = some last ∧ now < last) →
      Env.act chip (.edge now b) w s = .refused .clockBackwards) ∧
    (s.rotT ≤ now → (∀ last, w.lastEdge = some last → last ≤ now) →
      ∃ t d, exec (.rotEdge now b) s = .next t ∧ Env.act chip (.edge now b) w s = .next d ∧ d.state = t ∧
        d.outs = [t.out] ∧ d.value.loop = w.loop ∧ d.value.lastEdge = some now) ∧
    (∀ (bytes : List Byte) (i : Instr), w.loop.suspended = false → decode ⟨.command, bytes⟩ = .ok i →
      (∀ t, exec i s = .next t → Env.act chip (.command bytes) w s = .next ⟨w, t, [t.out]⟩) ∧
      (∀ x, exec i s = .refused x → Env.act chip (.command bytes) w s = .refused x))
end

