-- ==== Sys2Proof/Laws/Bytes.lean ====
section
/-! SUPPORT. Bytes, words and numbers: what the helpers of Decode.lean give back. -/

namespace Sys2Proof

theorem wordOf_getLsbD (h l : Byte) (i : Nat) :
    (wordOf h l).getLsbD i = if i < 8 then l.getLsbD i else h.getLsbD (i - 8) := by
  have e := BitVec.getLsbD_append (x := h) (y := l) (i := i)
  have e' : (h ++ l).getLsbD i = if i < 8 then l.getLsbD i else h.getLsbD (i - 8) := by
    rw [e]
  exact e'

@[simp] theorem hiByte_wordOf (h l : Byte) : hiByte (wordOf h l) = h := by
  apply BitVec.eq_of_getLsbD_eq
  intro i hi
  simp [hiByte, wordOf_getLsbD, hi]

@[simp] theorem loByte_wordOf (h l : Byte) : loByte (wordOf h l) = l := by
  apply BitVec.eq_of_getLsbD_eq
  intro i hi
  simp [loByte, wordOf_getLsbD, hi]

@[simp] theorem wordOf_bytes (w : Word) : wordOf (hiByte w) (loByte w) = w := by
  apply BitVec.eq_of_getLsbD_eq
  intro i hi
  rw [wordOf_getLsbD]
  by_cases h : i < 8
  · simp [loByte, h]
  · have h8 : i - 8 < 8 := by omega
    have hs : 8 + (i - 8) = i := by omega
    simp [hiByte, h, h8, hs]

theorem natOfBytes_append (xs : List Byte) (b : Byte) :
    natOfBytes (xs ++ [b]) = natOfBytes xs * 256 + b.toNat := by
  simp [natOfBytes, List.foldl_append]

theorem natOfBytes_bytesOfNatAux (fuel n : Nat) (h : n ≤ fuel) : natOfBytes (bytesOfNatAux fuel n) = n := by
  induction fuel generalizing n with
  | zero => obtain rfl : n = 0 := by omega
            rfl
  | succ fuel ih =>
    unfold bytesOfNatAux
    split
    · rename_i h0
      rw [h0]
      rfl
    · rw [natOfBytes_append, ih (n / 256) (by omega), BitVec.toNat_ofNat]
      omega

/-- The bytes of a number spell it. -/
theorem natOfBytes_bytesOfNat (n : Nat) : natOfBytes (bytesOfNat n) = n :=
  natOfBytes_bytesOfNatAux n n (Nat.le_refl n)

theorem bitOf_byteOfBit (b : Bool) : bitOf (byteOfBit b) = some b := by
  cases b <;> rfl

/-! ### Block B -/

/-- The group type is block B shifted right by 11 (R90). -/
theorem groupType_toNat (b : Word) : (groupType b).toNat = (b >>> 11).toNat := by
  have hb := b.isLt
  simp only [groupType, BitVec.extractLsb'_toNat, BitVec.toNat_ushiftRight, Nat.shiftRight_eq_div_pow]
  omega

theorem decodeGroup_ps {b : Word} (h : groupType b = 0) (c d : Word) :
    decodeGroup b c d = .ps (b.extractLsb' 0 2) d := by
  rw [decodeGroup, if_pos h]

theorem decodeGroup_rt {b : Word} (h : groupType b = 4) (c d : Word) :
    decodeGroup b c d = .rt (b.extractLsb' 0 4) c d := by
  rw [decodeGroup, if_neg (by rw [h]; decide), if_pos h]

theorem decodeGroup_ign {b : Word} (h₀ : groupType b ≠ 0) (h₄ : groupType b ≠ 4) (c d : Word) :
    decodeGroup b c d = .ign (groupType b) := by
  rw [decodeGroup, if_neg h₀, if_neg h₄]

/-- The high byte as a number (R86). -/
theorem hiByte_toNat (w : Word) : (hiByte w).toNat = (w >>> 8).toNat := by
  have := w.isLt
  simp only [hiByte, BitVec.extractLsb'_toNat, BitVec.toNat_ushiftRight, Nat.shiftRight_eq_div_pow]
  omega

/-- The low byte as a number (R86). -/
theorem loByte_toNat (w : Word) : (loByte w).toNat = (w &&& 0xFF).toNat := by
  have h := Nat.and_two_pow_sub_one_eq_mod w.toNat 8
  simp only [loByte, BitVec.extractLsb'_toNat, BitVec.toNat_and, Nat.shiftRight_zero]
  simpa using h.symm

/-- The segment of group type 0 is block B and 3 (R84). -/
theorem nameSegment_toNat (b : Word) : (b.extractLsb' 0 2).toNat = (b &&& 3).toNat := by
  have h := Nat.and_two_pow_sub_one_eq_mod b.toNat 2
  simp only [BitVec.extractLsb'_toNat, BitVec.toNat_and, Nat.shiftRight_zero]
  simpa using h.symm

/-- The segment of group type 4 is block B and 15 (R85). -/
theorem textSegment_toNat (b : Word) : (b.extractLsb' 0 4).toNat = (b &&& 15).toNat := by
  have h := Nat.and_two_pow_sub_one_eq_mod b.toNat 4
  simp only [BitVec.extractLsb'_toNat, BitVec.toNat_and, Nat.shiftRight_zero]
  simpa using h.symm

/-- The group type read through the mask of the operation table (R94, R103). -/
theorem groupType_of_mask {b : Word} {k : Nat} (h : b &&& 0xF800 = BitVec.ofNat 16 (k * 2048)) :
    groupType b = BitVec.ofNat 5 k := by
  have hm : (b &&& 0xF800) >>> 11 = b >>> 11 := by
    apply BitVec.eq_of_getLsbD_eq
    intro i hi
    have hb : ∀ j : Fin 16, (0xF800 : Word).getLsbD (11 + j.val) = decide (11 + j.val < 16) := by decide
    rw [BitVec.getLsbD_ushiftRight, BitVec.getLsbD_ushiftRight, BitVec.getLsbD_and, hb ⟨i, hi⟩]
    by_cases h16 : 11 + i < 16
    · simp [h16]
    · simp [h16, BitVec.getLsbD_of_ge b (11 + i) (by omega)]
  apply BitVec.eq_of_toNat_eq
  rw [groupType_toNat, ← hm, h]
  simp only [BitVec.toNat_ushiftRight, BitVec.toNat_ofNat, Nat.shiftRight_eq_div_pow]
  omega

end Sys2Proof
end

