-- ==== Sys2Proof/Laws/State.lean ====
section
/-! SUPPORT. One lemma per field per named update of State, so that no later proof unfolds a record update; and the
projections of Safety.lean through the updates. -/

namespace Sys2Proof.Machine

variable (s : State)

@[simp] theorem State.setSh_sh (sh : Vector Word 16) : (s.setSh sh).sh = sh := rfl
@[simp] theorem State.setSh_ps (sh : Vector Word 16) : (s.setSh sh).ps = s.ps := rfl
@[simp] theorem State.setSh_rt (sh : Vector Word 16) : (s.setSh sh).rt = s.rt := rfl
@[simp] theorem State.setSh_psStr (sh : Vector Word 16) : (s.setSh sh).psStr = s.psStr := rfl
@[simp] theorem State.setSh_rtStr (sh : Vector Word 16) : (s.setSh sh).rtStr = s.rtStr := rfl
@[simp] theorem State.setSh_rotVal (sh : Vector Word 16) : (s.setSh sh).rotVal = s.rotVal := rfl
@[simp] theorem State.setSh_rotT (sh : Vector Word 16) : (s.setSh sh).rotT = s.rotT := rfl
@[simp] theorem State.setSh_rotB (sh : Vector Word 16) : (s.setSh sh).rotB = s.rotB := rfl
@[simp] theorem State.setSh_cfg (sh : Vector Word 16) : (s.setSh sh).cfg = s.cfg := rfl
@[simp] theorem State.setSh_inputs (sh : Vector Word 16) : (s.setSh sh).inputs = s.inputs := rfl
@[simp] theorem State.setSh_out (sh : Vector Word 16) : (s.setSh sh).out = s.out := rfl

@[simp] theorem State.setName_sh (ps : Vector Byte 8) (str : Str) : (s.setName ps str).sh = s.sh := rfl
@[simp] theorem State.setName_ps (ps : Vector Byte 8) (str : Str) : (s.setName ps str).ps = ps := rfl
@[simp] theorem State.setName_rt (ps : Vector Byte 8) (str : Str) : (s.setName ps str).rt = s.rt := rfl
@[simp] theorem State.setName_psStr (ps : Vector Byte 8) (str : Str) : (s.setName ps str).psStr = str := rfl
@[simp] theorem State.setName_rtStr (ps : Vector Byte 8) (str : Str) : (s.setName ps str).rtStr = s.rtStr := rfl
@[simp] theorem State.setName_rotVal (ps : Vector Byte 8) (str : Str) : (s.setName ps str).rotVal = s.rotVal := rfl
@[simp] theorem State.setName_rotT (ps : Vector Byte 8) (str : Str) : (s.setName ps str).rotT = s.rotT := rfl
@[simp] theorem State.setName_rotB (ps : Vector Byte 8) (str : Str) : (s.setName ps str).rotB = s.rotB := rfl
@[simp] theorem State.setName_cfg (ps : Vector Byte 8) (str : Str) : (s.setName ps str).cfg = s.cfg := rfl
@[simp] theorem State.setName_inputs (ps : Vector Byte 8) (str : Str) : (s.setName ps str).inputs = s.inputs := rfl
@[simp] theorem State.setName_out (ps : Vector Byte 8) (str : Str) : (s.setName ps str).out = s.out := rfl

@[simp] theorem State.setText_sh (rt : Vector Byte 64) (str : Str) : (s.setText rt str).sh = s.sh := rfl
@[simp] theorem State.setText_ps (rt : Vector Byte 64) (str : Str) : (s.setText rt str).ps = s.ps := rfl
@[simp] theorem State.setText_rt (rt : Vector Byte 64) (str : Str) : (s.setText rt str).rt = rt := rfl
@[simp] theorem State.setText_psStr (rt : Vector Byte 64) (str : Str) : (s.setText rt str).psStr = s.psStr := rfl
@[simp] theorem State.setText_rtStr (rt : Vector Byte 64) (str : Str) : (s.setText rt str).rtStr = str := rfl
@[simp] theorem State.setText_rotVal (rt : Vector Byte 64) (str : Str) : (s.setText rt str).rotVal = s.rotVal := rfl
@[simp] theorem State.setText_rotT (rt : Vector Byte 64) (str : Str) : (s.setText rt str).rotT = s.rotT := rfl
@[simp] theorem State.setText_rotB (rt : Vector Byte 64) (str : Str) : (s.setText rt str).rotB = s.rotB := rfl
@[simp] theorem State.setText_cfg (rt : Vector Byte 64) (str : Str) : (s.setText rt str).cfg = s.cfg := rfl
@[simp] theorem State.setText_inputs (rt : Vector Byte 64) (str : Str) : (s.setText rt str).inputs = s.inputs := rfl
@[simp] theorem State.setText_out (rt : Vector Byte 64) (str : Str) : (s.setText rt str).out = s.out := rfl

@[simp] theorem State.setRotVal_sh (v : Int) : (s.setRotVal v).sh = s.sh := rfl
@[simp] theorem State.setRotVal_ps (v : Int) : (s.setRotVal v).ps = s.ps := rfl
@[simp] theorem State.setRotVal_rt (v : Int) : (s.setRotVal v).rt = s.rt := rfl
@[simp] theorem State.setRotVal_psStr (v : Int) : (s.setRotVal v).psStr = s.psStr := rfl
@[simp] theorem State.setRotVal_rtStr (v : Int) : (s.setRotVal v).rtStr = s.rtStr := rfl
@[simp] theorem State.setRotVal_rotVal (v : Int) : (s.setRotVal v).rotVal = v := rfl
@[simp] theorem State.setRotVal_rotT (v : Int) : (s.setRotVal v).rotT = s.rotT := rfl
@[simp] theorem State.setRotVal_rotB (v : Int) : (s.setRotVal v).rotB = s.rotB := rfl
@[simp] theorem State.setRotVal_cfg (v : Int) : (s.setRotVal v).cfg = s.cfg := rfl
@[simp] theorem State.setRotVal_inputs (v : Int) : (s.setRotVal v).inputs = s.inputs := rfl
@[simp] theorem State.setRotVal_out (v : Int) : (s.setRotVal v).out = s.out := rfl

@[simp] theorem State.setEdge_sh (now : Nat) (b : Bool) : (s.setEdge now b).sh = s.sh := rfl
@[simp] theorem State.setEdge_ps (now : Nat) (b : Bool) : (s.setEdge now b).ps = s.ps := rfl
@[simp] theorem State.setEdge_rt (now : Nat) (b : Bool) : (s.setEdge now b).rt = s.rt := rfl
@[simp] theorem State.setEdge_psStr (now : Nat) (b : Bool) : (s.setEdge now b).psStr = s.psStr := rfl
@[simp] theorem State.setEdge_rtStr (now : Nat) (b : Bool) : (s.setEdge now b).rtStr = s.rtStr := rfl
@[simp] theorem State.setEdge_rotVal (now : Nat) (b : Bool) : (s.setEdge now b).rotVal = s.rotVal := rfl
@[simp] theorem State.setEdge_rotT (now : Nat) (b : Bool) : (s.setEdge now b).rotT = now := rfl
@[simp] theorem State.setEdge_rotB (now : Nat) (b : Bool) : (s.setEdge now b).rotB = b := rfl
@[simp] theorem State.setEdge_cfg (now : Nat) (b : Bool) : (s.setEdge now b).cfg = s.cfg := rfl
@[simp] theorem State.setEdge_inputs (now : Nat) (b : Bool) : (s.setEdge now b).inputs = s.inputs := rfl
@[simp] theorem State.setEdge_out (now : Nat) (b : Bool) : (s.setEdge now b).out = s.out := rfl

@[simp] theorem State.setInputs_sh (rs : List Request) : (s.setInputs rs).sh = s.sh := rfl
@[simp] theorem State.setInputs_ps (rs : List Request) : (s.setInputs rs).ps = s.ps := rfl
@[simp] theorem State.setInputs_rt (rs : List Request) : (s.setInputs rs).rt = s.rt := rfl
@[simp] theorem State.setInputs_psStr (rs : List Request) : (s.setInputs rs).psStr = s.psStr := rfl
@[simp] theorem State.setInputs_rtStr (rs : List Request) : (s.setInputs rs).rtStr = s.rtStr := rfl
@[simp] theorem State.setInputs_rotVal (rs : List Request) : (s.setInputs rs).rotVal = s.rotVal := rfl
@[simp] theorem State.setInputs_rotT (rs : List Request) : (s.setInputs rs).rotT = s.rotT := rfl
@[simp] theorem State.setInputs_rotB (rs : List Request) : (s.setInputs rs).rotB = s.rotB := rfl
@[simp] theorem State.setInputs_cfg (rs : List Request) : (s.setInputs rs).cfg = s.cfg := rfl
@[simp] theorem State.setInputs_inputs (rs : List Request) : (s.setInputs rs).inputs = rs := rfl
@[simp] theorem State.setInputs_out (rs : List Request) : (s.setInputs rs).out = s.out := rfl

@[simp] theorem State.setOut_sh (o : Output) : (s.setOut o).sh = s.sh := rfl
@[simp] theorem State.setOut_ps (o : Output) : (s.setOut o).ps = s.ps := rfl
@[simp] theorem State.setOut_rt (o : Output) : (s.setOut o).rt = s.rt := rfl
@[simp] theorem State.setOut_psStr (o : Output) : (s.setOut o).psStr = s.psStr := rfl
@[simp] theorem State.setOut_rtStr (o : Output) : (s.setOut o).rtStr = s.rtStr := rfl
@[simp] theorem State.setOut_rotVal (o : Output) : (s.setOut o).rotVal = s.rotVal := rfl
@[simp] theorem State.setOut_rotT (o : Output) : (s.setOut o).rotT = s.rotT := rfl
@[simp] theorem State.setOut_rotB (o : Output) : (s.setOut o).rotB = s.rotB := rfl
@[simp] theorem State.setOut_cfg (o : Output) : (s.setOut o).cfg = s.cfg := rfl
@[simp] theorem State.setOut_inputs (o : Output) : (s.setOut o).inputs = s.inputs := rfl
@[simp] theorem State.setOut_out (o : Output) : (s.setOut o).out = o := rfl

/-! Repeated and absorbed updates -/

@[simp] theorem State.setOut_setOut (o o' : Output) : (s.setOut o).setOut o' = s.setOut o' := rfl
@[simp] theorem State.setInputs_setInputs (rs rs' : List Request) :
    (s.setInputs rs).setInputs rs' = s.setInputs rs' := rfl
@[simp] theorem State.setOut_self : s.setOut s.out = s := rfl
@[simp] theorem State.setInputs_self : s.setInputs s.inputs = s := rfl
theorem State.setSh_setOut (sh : Vector Word 16) (o : Output) : (s.setOut o).setSh sh = (s.setSh sh).setOut o := rfl
theorem State.setName_setOut (ps : Vector Byte 8) (str : Str) (o : Output) :
    (s.setOut o).setName ps str = (s.setName ps str).setOut o := rfl
theorem State.setText_setOut (rt : Vector Byte 64) (str : Str) (o : Output) :
    (s.setOut o).setText rt str = (s.setText rt str).setOut o := rfl

/-! The projections of Safety.lean -/

@[simp] theorem State.setOut_cells (o : Output) : (s.setOut o).cells = s.cells := rfl
@[simp] theorem State.setInputs_cells (rs : List Request) : (s.setInputs rs).cells = s.cells := rfl
@[simp] theorem State.setOut_rdsUnit (o : Output) : (s.setOut o).rdsUnit = s.rdsUnit := rfl
@[simp] theorem State.setInputs_rdsUnit (rs : List Request) : (s.setInputs rs).rdsUnit = s.rdsUnit := rfl
@[simp] theorem State.setRotVal_rdsUnit (v : Int) : (s.setRotVal v).rdsUnit = s.rdsUnit := rfl
@[simp] theorem State.setEdge_rdsUnit (now : Nat) (b : Bool) : (s.setEdge now b).rdsUnit = s.rdsUnit := rfl
@[simp] theorem State.setOut_rotUnit (o : Output) : (s.setOut o).rotUnit = s.rotUnit := rfl
@[simp] theorem State.setInputs_rotUnit (rs : List Request) : (s.setInputs rs).rotUnit = s.rotUnit := rfl
@[simp] theorem State.setSh_rotUnit (sh : Vector Word 16) : (s.setSh sh).rotUnit = s.rotUnit := rfl
@[simp] theorem State.setName_rotUnit (ps : Vector Byte 8) (str : Str) : (s.setName ps str).rotUnit = s.rotUnit := rfl
@[simp] theorem State.setText_rotUnit (rt : Vector Byte 64) (str : Str) : (s.setText rt str).rotUnit = s.rotUnit := rfl
@[simp] theorem State.setOut_accumulator (o : Output) : (s.setOut o).accumulator = s.accumulator := rfl
@[simp] theorem State.setInputs_accumulator (rs : List Request) : (s.setInputs rs).accumulator = s.accumulator := rfl
@[simp] theorem State.setSh_accumulator (sh : Vector Word 16) : (s.setSh sh).accumulator = s.accumulator := rfl

end Sys2Proof.Machine
end

