-- ==== Sys2Proof/Laws/Ops.lean ====
section
/-! SUPPORT. One lemma for each shared operation, saying everything it can do; the proofs cite these and do not unfold. -/

namespace Sys2Proof.Machine

/-! ### Register indices -/

theorem regIndex?_val (r : Fin 16) : regIndex? r.val = some r := by
  simp [regIndex?]

theorem regIndex?_of_lt {reg : Nat} (h : reg < 16) : regIndex? reg = some ⟨reg, h⟩ := by
  simp [regIndex?, h]

theorem regIndex?_of_ge {reg : Nat} (h : 16 ≤ reg) : regIndex? reg = none := by
  simp [regIndex?, Nat.not_lt.mpr h]

theorem regIndex?_some {reg : Nat} {r : Fin 16} (h : regIndex? reg = some r) : reg ≤ 15 ∧ r.val = reg := by
  unfold regIndex? at h
  split at h
  · cases h
    exact ⟨by omega, rfl⟩
  · cases h

/-! ### Bursts -/

/-- The shadow a burst gives, register by register (R64). -/
theorem burstWords_get (w : List Byte) (r : Nat) (h : r < 16) :
    (burstWords w)[r] = wireWord w ((r + 6) % 16) := by
  simp [burstWords, wireOfLogical]

/-- The shadow a burst gives, wire word by wire word (R64). -/
theorem burstWords_wire (w : List Byte) (k : Nat) (h : k < 16) :
    (burstWords w)[(0x0A + k) % 16]'(Nat.mod_lt _ (by decide)) = wireWord w k := by
  rw [burstWords_get]
  congr 1
  omega

theorem burstBytes_length (sh : Vector Word 16) : (burstBytes sh).length = 32 := rfl

theorem wireWord_burstBytes (sh : Vector Word 16) (k : Nat) (h : k < 16) :
    wireWord (burstBytes sh) k = sh.toList.getD (logicalOfWire k) 0 := by
  have e : ∀ x : Word, wordOf (hiByte x) (loByte x) = x := wordOf_bytes
  interval_cases k <;> exact e _

/-- The burst that carries a shadow gives that shadow (R64). -/
theorem burstWords_burstBytes (sh : Vector Word 16) : burstWords (burstBytes sh) = sh := by
  ext r hr : 1
  rw [burstWords_get _ r hr, wireWord_burstBytes _ _ (Nat.mod_lt _ (by decide))]
  have hw : logicalOfWire ((r + 6) % 16) = r := by
    simp only [logicalOfWire]
    omega
  rw [hw]
  simp [List.getD_eq_getElem?_getD, hr]

theorem refreshShadow_fail (s : State) : refreshShadow .fail s = .ok (s, [.transportReadFail]) := rfl

theorem refreshShadow_ok {w : List Byte} (h : w.length = 32) (s : State) :
    refreshShadow (.ok w) s = .ok (s.setSh (burstWords w), []) := by
  simp [refreshShadow, h]

theorem refreshShadow_bad {w : List Byte} (h : w.length ≠ 32) (s : State) :
    refreshShadow (.ok w) s = .error .badBurstLength := by
  simp [refreshShadow, h]

/-- Everything a refresh can do: a failed read, a burst of 32 bytes, or the refusal of any other burst (R110 to R112). -/
theorem refreshShadow_cases (bus : BusAnswer) (s : State) :
    (bus = .fail ∧ refreshShadow bus s = .ok (s, [.transportReadFail])) ∨
    (∃ w, bus = .ok w ∧ w.length = 32 ∧ refreshShadow bus s = .ok (s.setSh (burstWords w), [])) ∨
    (∃ w, bus = .ok w ∧ w.length ≠ 32 ∧ refreshShadow bus s = .error .badBurstLength) := by
  cases bus with
  | fail => exact .inl ⟨rfl, rfl⟩
  | ok w =>
    by_cases h : w.length = 32
    · exact .inr (.inl ⟨w, rfl, h, refreshShadow_ok h s⟩)
    · exact .inr (.inr ⟨w, rfl, h, refreshShadow_bad h s⟩)

/-! ### Character writes -/

theorem printable_iff (c : Byte) : printable c = true ↔ 32 ≤ c.toNat ∧ c.toNat ≤ 126 := by
  simp [printable]

/-- One character write, position by position (R157). -/
theorem putChar_get {n : Nat} (buf : Vector Byte n) (i : Nat) (c : Byte) (j : Nat) (h : j < n) :
    (putChar buf i c)[j] = if i = j ∧ printable c = true then c else buf[j] := by
  unfold putChar
  by_cases hp : printable c = true
  · simp [hp, Vector.getElem_setIfInBounds]
  · simp [hp]

/-- A run of character writes, position by position: the character of the run that falls on `j`, if it is printable, else
what stood there (R157, R164). -/
theorem putChars_get {n : Nat} (cs : List Byte) (buf : Vector Byte n) (i j : Nat) (h : j < n) :
    (putChars buf i cs)[j] =
      match cs[j - i]? with
      | some c => if i ≤ j ∧ printable c = true then c else buf[j]
      | none => buf[j] := by
  induction cs generalizing buf i with
  | nil => simp [putChars]
  | cons c cs ih =>
    rw [putChars, ih, putChar_get]
    rcases Nat.lt_trichotomy j i with hlt | heq | hgt
    · have h0 : j - i = 0 := by omega
      have h1 : j - (i + 1) = 0 := by omega
      have hne : ¬ i = j := by omega
      have hle : ¬ i ≤ j := by omega
      have hle' : ¬ i + 1 ≤ j := by omega
      simp only [h0, h1, hne, hle, hle', false_and, if_false, List.getElem?_cons_zero]
      cases cs[0]? <;> rfl
    · subst heq
      have h1 : j - (j + 1) = 0 := by omega
      have hle' : ¬ j + 1 ≤ j := by omega
      simp only [Nat.sub_self, h1, hle', false_and, if_false, true_and, Nat.le_refl, List.getElem?_cons_zero]
      cases cs[0]? <;> rfl
    · have h0 : j - i = (j - (i + 1)) + 1 := by omega
      have hne : ¬ i = j := by omega
      have hle : i ≤ j := by omega
      have hle' : i + 1 ≤ j := by omega
      simp [h0, hne, hle, hle']

/-- A run with no printable character writes nothing. -/
theorem putChars_of_not_wrote {n : Nat} (cs : List Byte) (buf : Vector Byte n) (i : Nat)
    (h : wrote cs = false) : putChars buf i cs = buf := by
  induction cs generalizing buf i with
  | nil => rfl
  | cons c cs ih =>
    simp only [wrote, List.any_cons, Bool.or_eq_false_iff] at h
    rw [putChars, show putChar buf i c = buf from by simp [putChar, h.1]]
    exact ih buf (i + 1) h.2

/-- Character writes keep every position printable (R30). -/
theorem putChars_allPrintable {n : Nat} (cs : List Byte) (buf : Vector Byte n) (i : Nat)
    (h : AllPrintable buf) : AllPrintable (putChars buf i cs) := by
  intro j hj
  rw [putChars_get]
  cases cs[j - i]? with
  | none => exact h j hj
  | some c =>
    by_cases hc : i ≤ j ∧ printable c = true
    · simp [hc]
    · simpa [hc] using h j hj

/-- The same run written again changes nothing. -/
theorem putChars_putChars {n : Nat} (cs : List Byte) (buf : Vector Byte n) (i : Nat) :
    putChars (putChars buf i cs) i cs = putChars buf i cs := by
  ext j hj : 1
  rw [putChars_get, putChars_get]
  cases cs[j - i]? with
  | none => rfl
  | some c => by_cases h : i ≤ j ∧ printable c = true <;> simp [h]

/-- Runs over separate positions may be written in either order. -/
theorem putChars_comm {n : Nat} (cs ds : List Byte) (buf : Vector Byte n) (i j : Nat)
    (h : i + cs.length ≤ j ∨ j + ds.length ≤ i) :
    putChars (putChars buf i cs) j ds = putChars (putChars buf j ds) i cs := by
  ext k hk : 1
  simp only [putChars_get]
  cases hc : cs[k - i]? with
  | none => simp
  | some c =>
    cases hd : ds[k - j]? with
    | none => simp
    | some d =>
      have l1 := (List.getElem?_eq_some_iff.1 hc).1
      have l2 := (List.getElem?_eq_some_iff.1 hd).1
      by_cases hi : i ≤ k
      · simp [show ¬ j ≤ k by omega]
      · simp [hi]

theorem blank_allPrintable (n : Nat) : AllPrintable (Vector.replicate n (0x20 : Byte)) := by
  intro i hi
  simp only [Vector.getElem_replicate]
  decide

theorem psIndex_le (seg : BitVec 2) : psIndex seg ≤ 6 := by
  have := seg.isLt
  simp only [psIndex]
  omega

theorem rtIndex_le (seg : BitVec 4) : rtIndex seg ≤ 60 := by
  have := seg.isLt
  simp only [rtIndex]
  omega

/-! ### Strings -/

theorem join_length {n : Nat} (buf : Vector Byte n) : (join buf).length = n := by
  simp [join]

theorem strip_length_le (s : Str) : (strip s).length ≤ s.length := by
  have h1 := (List.dropWhile_suffix (l := s) (· == 0x20)).length_le
  have h2 := (List.dropWhile_suffix (l := (s.dropWhile (· == 0x20)).reverse) (· == 0x20)).length_le
  simp only [strip, List.length_reverse] at *
  omega

theorem mem_join_allPrintable {n : Nat} {buf : Vector Byte n} (h : AllPrintable buf) :
    ∀ c ∈ join buf, 32 ≤ c ∧ c ≤ 126 := by
  intro c hc
  simp only [join, List.mem_map] at hc
  obtain ⟨x, hx, rfl⟩ := hc
  rw [Vector.mem_toList_iff, Vector.mem_iff_getElem] at hx
  obtain ⟨i, hi, rfl⟩ := hx
  exact (printable_iff _).1 (h i hi)

/-! ### Placeholders -/

theorem placeholderOf?_some {sp : Spelling} {s : Str} {p : Placeholder} (h : placeholderOf? sp s = some p) :
    placeholderText sp p = s := by
  unfold placeholderOf? at h
  split at h
  · cases h
    exact .symm ‹_›
  · split at h
    · cases h
      exact .symm ‹_›
    · split at h
      · cases h
        exact .symm ‹_›
      · cases h

/-! ### The rotary unit -/

theorem clamp_mem {lo hi : Int} (h : lo ≤ hi) (v : Int) : lo ≤ clamp v lo hi ∧ clamp v lo hi ≤ hi := by
  simp only [clamp]
  omega

theorem stepValue_mem {c : Config} (h : c.rotMin ≤ c.rotMax) (v : Int) (b : Bool) :
    c.rotMin ≤ stepValue c v b ∧ stepValue c v b ≤ c.rotMax := by
  unfold stepValue
  split <;> exact clamp_mem h _

/-- Everything the handler can do: discard, or accept (R191). -/
theorem takeEdge_cases (now : Nat) (b : Bool) (s : State) :
    (elapsed now s.rotT < 50 ∧ takeEdge now b s = s.setOut { events := [.edgeDiscarded] }) ∨
    (50 ≤ elapsed now s.rotT ∧
      takeEdge now b s = ((s.setEdge now b).setRotVal (stepValue s.cfg s.rotVal b)).setOut {}) := by
  by_cases h : elapsed now s.rotT < 50
  · exact .inl ⟨h, by simp [takeEdge, discarded, h]⟩
  · exact .inr ⟨Int.not_lt.mp h, by simp [takeEdge, discarded, h]⟩

/-! ### The tick -/

/-- The dispatch always completes, and only the accumulator and the output can change (R155, R166). -/
theorem runGroup_next (g : Group) (s : State) :
    ∃ t, runGroup g s = .next t ∧ runGroup g s = exec g.toInstr s ∧
      t.sh = s.sh ∧ t.rotUnit = s.rotUnit ∧ t.cfg = s.cfg ∧ t.inputs = s.inputs := by
  cases g <;> exact ⟨_, rfl, rfl, rfl, rfl, rfl, rfl⟩

/-- Steps 2 to 7 always complete (R153 to R155, R166). -/
theorem decodeTick_cases (ev : List Event) (s : State) :
    (dataReady s = false ∧ decodeTick ev s = .next (s.setOut { events := ev })) ∨
    (dataReady s = true ∧ ∃ t, runGroup (readGroup s) s = .next t ∧
      decodeTick ev s = .next (t.setOut { t.out with events := ev ++ t.out.events })) := by
  cases h : dataReady s with
  | false => exact .inl ⟨rfl, by simp [decodeTick, h, finish]⟩
  | true =>
    obtain ⟨t, ht, -⟩ := runGroup_next (readGroup s) s
    exact .inr ⟨rfl, t, ht, by simp [decodeTick, h, ht, afterEvents]⟩

/-- Everything a tick can do: the refusal of the refresh, an end at a failed read under `SKIP`, or steps 2 to 7 (R150, R152). -/
theorem execRdsProcess_cases (bus : BusAnswer) (s : State) :
    (∃ r, refreshShadow bus s = .error r ∧ execRdsProcess bus s = .refused r) ∨
    (∃ u ev, refreshShadow bus s = .ok (u, ev) ∧
      ((endsTick u.cfg bus = true ∧ execRdsProcess bus s = .next (u.setOut { events := ev })) ∨
       (endsTick u.cfg bus = false ∧ execRdsProcess bus s = decodeTick ev u))) := by
  cases h : refreshShadow bus s with
  | error r => exact .inl ⟨r, rfl, by simp [execRdsProcess, h]⟩
  | ok p =>
    obtain ⟨u, ev⟩ := p
    refine .inr ⟨u, ev, rfl, ?_⟩
    cases he : endsTick u.cfg bus with
    | true => exact .inl ⟨rfl, by simp [execRdsProcess, h, he, finish]⟩
    | false => exact .inr ⟨rfl, by simp [execRdsProcess, h, he]⟩

/-! ### One step -/

/-- Everything a step can do: idle, run the decoded operation, or refuse the request (R23, R62). -/
theorem step_cases (s : State) :
    (s.inputs = [] ∧ step s = .next s) ∨
    (∃ r rest i, s.inputs = r :: rest ∧ decode r = .ok i ∧ step s = exec i (s.setInputs rest)) ∨
    (∃ r rest e, s.inputs = r :: rest ∧ decode r = .error e ∧ step s = .refused (rejection e)) := by
  cases h : s.inputs with
  | nil => exact .inl ⟨rfl, by simp [step, h]⟩
  | cons r rest =>
    cases hd : decode r with
    | ok i => exact .inr (.inl ⟨r, rest, i, rfl, hd, by simp [step, h, hd]⟩)
    | error e => exact .inr (.inr ⟨r, rest, e, rfl, hd, by simp [step, h, hd]⟩)

end Sys2Proof.Machine
end

