-- ==== Sys2Proof/Laws/Environment.lean ====
section
/-! SUPPORT. One lemma for each shared procedure of the environment, saying everything it can do; the fields of a word bit by
bit. -/

namespace Sys2Proof.Machine.Env

/-! ### Procedures -/

@[simp] theorem ret_apply {α : Type} (a : α) (s : State) : ret a s = .next ⟨a, s, []⟩ := rfl

@[simp] theorem look_apply {α : Type} (f : State → α) (s : State) : look f s = .next ⟨f s, s, []⟩ := rfl

@[simp] theorem note_apply (ev : List Event) (s : State) :
    note ev s = .next ⟨(), s, if ev = [] then [] else [{ events := ev }]⟩ := rfl

@[simp] theorem afterOuts_next {α : Type} (os : List Output) (d : Done α) :
    afterOuts os (.next d) = .next ⟨d.value, d.state, os ++ d.outs⟩ := rfl

theorem andThen_next {α β : Type} {p : Proc α} {s : State} {d : Done α} (h : p s = .next d) (k : α → Proc β) :
    andThen p k s = afterOuts d.outs (k d.value d.state) := by
  simp [andThen, h]

/-- A sequence of two procedures that completed, taken apart. -/
theorem andThen_eq_next {α β : Type} {p : Proc α} {k : α → Proc β} {s : State} {e : Done β}
    (h : andThen p k s = .next e) :
    ∃ d r, p s = .next d ∧ k d.value d.state = .next r ∧ e = ⟨r.value, r.state, d.outs ++ r.outs⟩ := by
  unfold andThen at h
  cases hp : p s with
  | fault f => cases f
  | refused x => simp [hp] at h
  | next d =>
    simp only [hp] at h
    cases hk : k d.value d.state with
    | fault f => cases f
    | refused x => simp [hk, afterOuts] at h
    | next r =>
      simp only [hk, afterOuts_next, Host.Outcome.next.injEq] at h
      exact ⟨d, r, rfl, hk, h.symm⟩

theorem op_next {i : Instr} {s t : State} (h : exec i s = .next t) : op i s = .next ⟨(), t, [t.out]⟩ := by
  simp [op, h]

theorem op_eq_next {i : Instr} {s : State} {d : Done Unit} (h : op i s = .next d) :
    exec i s = .next d.state ∧ d.outs = [d.state.out] := by
  unfold op at h
  cases he : exec i s with
  | fault f => cases f
  | refused x => simp [he] at h
  | next t =>
    simp only [he, Host.Outcome.next.injEq] at h
    subst h
    exact ⟨rfl, rfl⟩

/-- Reading a register always completes (R115). -/
theorem getReg_next (r : Fin 16) (s : State) :
    getReg r s = .next ⟨s.sh[r], s.setOut { result := some (.word s.sh[r]) }, [{ result := some (.word s.sh[r]) }]⟩ := by
  have h : exec (.shGet r.val) s = .next (s.setOut { result := some (.word s.sh[r]) }) := by
    simp [exec, execShGet, regIndex?_val, finish]
  rw [getReg, andThen_next (op_next h)]
  rfl

/-- Changing a register always completes: one word of the shadow, nothing sent (R115, R116). -/
theorem modifyReg_next (r : Fin 16) (f : Word → Word) (s : State) :
    modifyReg r f s = .next ⟨f s.sh[r], (s.setSh (s.sh.set r (f s.sh[r]))).setOut {},
      [{ result := some (.word s.sh[r]) }, {}]⟩ := by
  have hl : (f s.sh[r]).toNat ≤ 65535 := by have := (f s.sh[r]).isLt; omega
  have h : exec (.shSet r.val (f s.sh[r]).toNat) (s.setOut { result := some (.word s.sh[r]) }) =
      .next ((s.setSh (s.sh.set r (f s.sh[r]))).setOut {}) := by
    simp only [exec, execShSet, regIndex?_val, hl, if_true, finish, BitVec.ofNat_toNat, BitVec.setWidth_eq]
    rfl
  rw [modifyReg, andThen_next (getReg_next r s)]
  simp only [andThen_next (op_next h), ret_apply, afterOuts_next]
  rfl

/-- A commit always completes: the write block is sent and no cell changes (R113). -/
theorem commit_next (ack : WriteAnswer) (s : State) :
    ∃ o : Output, o.busWrite = some (commitBytes s.sh) ∧ o.result = none ∧
      commit ack s = .next ⟨(), s.setOut o, [o]⟩ := by
  cases ack <;> exact ⟨{ busWrite := some (commitBytes s.sh), events := _ }, rfl, rfl, rfl⟩

/-! ### Fields of a word -/

theorem withBit_getLsbD (x : Word) (j : Fin 16) (b : Bool) (i : Nat) :
    (withBit x j b).getLsbD i = if i = j.val then b else x.getLsbD i := by
  have hj := j.isLt
  unfold withBit
  by_cases hi : i < 16
  · cases b <;> by_cases h : i = j.val
    · simp [h]
    · simp [h, hi]
    · simp [h]
    · simp [h, Ne.symm h]
  · rw [BitVec.getLsbD_of_ge _ _ (by omega), BitVec.getLsbD_of_ge _ _ (by omega), if_neg (by omega)]

theorem withLow9_getLsbD (x : Word) (y : BitVec 9) (i : Nat) :
    (withLow9 x y).getLsbD i = if i < 9 then y.getLsbD i else x.getLsbD i := by
  have e : (withLow9 x y).getLsbD i = if i < 9 then y.getLsbD i else (x.extractLsb' 9 7).getLsbD (i - 9) := by
    have h := BitVec.getLsbD_append (x := x.extractLsb' 9 7) (y := y) (i := i)
    unfold withLow9
    convert h using 1
  rw [e]
  split
  · rfl
  · by_cases h : i < 16
    · simp [show i - 9 < 7 by omega, show 9 + (i - 9) = i by omega]
    · rw [BitVec.getLsbD_of_ge _ _ (by omega), BitVec.getLsbD_of_ge _ _ (by omega)]

theorem withLow4_getLsbD (x : Word) (y : BitVec 4) (i : Nat) :
    (withLow4 x y).getLsbD i = if i < 4 then y.getLsbD i else x.getLsbD i := by
  have e : (withLow4 x y).getLsbD i = if i < 4 then y.getLsbD i else (x.extractLsb' 4 12).getLsbD (i - 4) := by
    have h := BitVec.getLsbD_append (x := x.extractLsb' 4 12) (y := y) (i := i)
    unfold withLow4
    convert h using 1
  rw [e]
  split
  · rfl
  · by_cases h : i < 16
    · simp [show i - 4 < 12 by omega, show 4 + (i - 4) = i by omega]
    · rw [BitVec.getLsbD_of_ge _ _ (by omega), BitVec.getLsbD_of_ge _ _ (by omega)]

theorem withLow4_and (x : Word) (y : BitVec 4) : withLow4 x y &&& 0xF = y.setWidth 16 := by
  apply BitVec.eq_of_getLsbD_eq
  intro i hi
  have hm : (0xF : Word).getLsbD i = decide (i < 4) := by
    clear * - hi
    revert i
    decide
  rw [BitVec.getLsbD_and, withLow4_getLsbD, hm, BitVec.getLsbD_setWidth]
  by_cases h : i < 4
  · simp [h, hi]
  · simp only [h, if_false, decide_false, Bool.and_false]
    rw [BitVec.getLsbD_of_ge y i (by omega), Bool.and_false]

theorem withLow4_shiftRight (x : Word) (y : BitVec 4) : withLow4 x y >>> 4 = x >>> 4 := by
  apply BitVec.eq_of_getLsbD_eq
  intro i hi
  simp [withLow4_getLsbD]

theorem withLow9_and (x : Word) (y : BitVec 9) : withLow9 x y &&& 0x1FF = y.setWidth 16 := by
  apply BitVec.eq_of_getLsbD_eq
  intro i hi
  have hm : (0x1FF : Word).getLsbD i = decide (i < 9) := by
    clear * - hi
    revert i
    decide
  rw [BitVec.getLsbD_and, withLow9_getLsbD, hm, BitVec.getLsbD_setWidth]
  by_cases h : i < 9
  · simp [h, hi]
  · simp only [h, if_false, decide_false, Bool.and_false]
    rw [BitVec.getLsbD_of_ge y i (by omega), Bool.and_false]

end Sys2Proof.Machine.Env
end

