-- ==== Sys2Proof/Laws/PerInstr.lean ====
section
/-! SUPPORT. Statements made per operation: the family TableMatch says that an encoding matches its row of the operation
table (30_encoding.md R103). -/

namespace Sys2Proof.Laws.TableMatch

/-- The row of an operation: its port (none for a row on block B), its match and its mask (opcode_table.json). -/
def row : Instr → Option Port × Nat × Nat
  | .shRefresh _ => (some .command, 0x0, 0xF)
  | .shCommit _ _ _ => (some .command, 0x1, 0xF)
  | .shGet _ => (some .command, 0x2, 0xF)
  | .shSet _ _ => (some .command, 0x3, 0xF)
  | .rdsProcess _ => (some .command, 0x4, 0xF)
  | .rdsReset _ => (some .command, 0x5, 0xF)
  | .rdsName => (some .command, 0x6, 0xF)
  | .rdsText => (some .command, 0x7, 0xF)
  | .rotGet => (some .command, 0x8, 0xF)
  | .rotSet _ => (some .command, 0x9, 0xF)
  | .rotEdge _ _ => (some .interrupt, 0x0, 0x0)
  | .rdsPs _ _ => (none, 0x0000, 0xF800)
  | .rdsRt _ _ _ => (none, 0x2000, 0xF800)
  | .rdsIgn gt => (none, gt.toNat * 2048, 0xF800)

/-- The port an encoding goes to, and the word its row matches: the first byte of a request, or block B. -/
def keyOf : Encoded → Option Port × Nat
  | .request r => (some r.port, (r.bytes.headD 0).toNat)
  | .blocks b _ _ => (none, b.toNat)

/-- The encoding of `i` goes to the port of its row and has the row's match under the row's mask. -/
def Statement (i : Instr) : Prop :=
  (keyOf (encode i)).1 = (row i).1 ∧ (keyOf (encode i)).2 &&& (row i).2.2 = (row i).2.1

theorem shRefresh (bus : BusAnswer) : Statement (.shRefresh bus) := by
  simp [Statement, keyOf, encode, row]

theorem shCommit (lo hi : Nat) (ack : WriteAnswer) : Statement (.shCommit lo hi ack) := by
  simp [Statement, keyOf, encode, row]

theorem shGet (reg : Nat) : Statement (.shGet reg) := by
  simp [Statement, keyOf, encode, row]

theorem shSet (reg val : Nat) : Statement (.shSet reg val) := by
  simp [Statement, keyOf, encode, row]

theorem rdsProcess (bus : BusAnswer) : Statement (.rdsProcess bus) := by
  simp [Statement, keyOf, encode, row]

theorem rdsReset (cause : Cause) : Statement (.rdsReset cause) := by
  simp [Statement, keyOf, encode, row]

theorem rdsName : Statement .rdsName := by
  simp [Statement, keyOf, encode, row]

theorem rdsText : Statement .rdsText := by
  simp [Statement, keyOf, encode, row]

theorem rotGet : Statement .rotGet := by
  simp [Statement, keyOf, encode, row]

theorem rotSet (v : Int) : Statement (.rotSet v) := by
  simp [Statement, keyOf, encode, row]

theorem rotEdge (now : Nat) (b : Bool) : Statement (.rotEdge now b) := by
  simp [Statement, keyOf, encode, row]

theorem rdsPs (seg : BitVec 2) (d : Word) : Statement (.rdsPs seg d) := by
  refine ⟨rfl, ?_⟩
  change (blockB 0 (seg.setWidth 4)).toNat &&& 0xF800 = 0x0000
  clear d
  revert seg
  decide

theorem rdsRt (seg : BitVec 4) (c d : Word) : Statement (.rdsRt seg c d) := by
  refine ⟨rfl, ?_⟩
  change (blockB 4 seg).toNat &&& 0xF800 = 0x2000
  clear c d
  revert seg
  decide

theorem rdsIgn (gt : BitVec 5) : Statement (.rdsIgn gt) := by
  refine ⟨rfl, ?_⟩
  revert gt
  decide

end Sys2Proof.Laws.TableMatch
end

