-- ==== Sys2Proof/Laws/Run.lean ====
section
/-! SUPPORT. What the parts of a run give; the tape does not matter to an operation. -/

namespace Sys2Proof.Machine

@[simp] theorem afterOutput_next (o : Output) (r : Run) : afterOutput o (.next r) = .next ⟨r.state, o :: r.outs⟩ := rfl

theorem runOps_cons {i : Instr} {s t : State} (h : exec i s = .next t) (is : List Instr) :
    runOps (i :: is) s = afterOutput t.out (runOps is t) := by
  simp [runOps, h]

theorem runSteps_cons {r : Request} {rs : List Request} {s t : State} (hi : s.inputs = r :: rs)
    (h : step s = .next t) (n : Nat) : runSteps (n + 1) s = afterOutput t.out (runSteps n t) := by
  simp [runSteps, hi, h]

/-- With nothing issued a run ends where it is (R15). -/
theorem runSteps_idle {s : State} (h : s.inputs = []) (n : Nat) : runSteps n s = .next ⟨s, []⟩ := by
  cases n <;> simp [runSteps, h]

/-! ### The tape -/

theorem runGroup_setInputs {g : Group} {s t : State} (h : runGroup g s = .next t) (rs : List Request) :
    runGroup g (s.setInputs rs) = .next (t.setInputs rs) := by
  cases g <;> cases h <;> rfl

theorem refreshShadow_setInputs {bus : BusAnswer} {s u : State} {ev : List Event} (h : refreshShadow bus s = .ok (u, ev))
    (rs : List Request) : refreshShadow bus (s.setInputs rs) = .ok (u.setInputs rs, ev) := by
  rcases refreshShadow_cases bus s with ⟨rfl, e⟩ | ⟨w, rfl, hw, e⟩ | ⟨w, rfl, hw, e⟩ <;> rw [e] at h <;> cases h
  · rfl
  · rw [refreshShadow_ok hw]; rfl

theorem decodeTick_setInputs {ev : List Event} {s t : State} (h : decodeTick ev s = .next t) (rs : List Request) :
    decodeTick ev (s.setInputs rs) = .next (t.setInputs rs) := by
  rcases decodeTick_cases ev s with ⟨hd, e⟩ | ⟨hd, u, hu, e⟩ <;> rw [e] at h <;> cases h
  · have : dataReady (s.setInputs rs) = false := hd
    simp [decodeTick, this, finish]; rfl
  · have : dataReady (s.setInputs rs) = true := hd
    have hr : readGroup (s.setInputs rs) = readGroup s := rfl
    simp [decodeTick, this, hr, runGroup_setInputs hu rs, afterEvents]; rfl

/-- No operation reads the tape (R23): with another tape it does the same. -/
theorem exec_setInputs {i : Instr} {s t : State} (h : exec i s = .next t) (rs : List Request) :
    exec i (s.setInputs rs) = .next (t.setInputs rs) := by
  cases i with
  | shRefresh bus =>
    simp only [exec, execShRefresh] at h ⊢
    cases hr : refreshShadow bus s with
    | error e => simp [hr] at h
    | ok p =>
      simp only [hr, finish] at h
      cases h
      rw [refreshShadow_setInputs hr rs]; rfl
  | rdsProcess bus =>
    simp only [exec] at h ⊢
    rcases execRdsProcess_cases bus s with ⟨r, -, e⟩ | ⟨u, ev, hu, ⟨he, e⟩ | ⟨he, e⟩⟩ <;> rw [e] at h
    · cases h
    · cases h
      simp [execRdsProcess, refreshShadow_setInputs hu rs, he, finish]; rfl
    · simp [execRdsProcess, refreshShadow_setInputs hu rs, he, decodeTick_setInputs h rs]
  | shCommit lo hi ack =>
    simp only [exec, execShCommit] at h ⊢
    split at h <;> cases h
    rw [if_pos ‹_›]; rfl
  | shGet r =>
    simp only [exec, execShGet] at h ⊢
    cases hr : regIndex? r <;> simp only [hr] at h ⊢ <;> cases h; rfl
  | shSet r v =>
    simp only [exec, execShSet] at h ⊢
    cases hr : regIndex? r <;> simp only [hr] at h ⊢
    · cases h
    · split at h <;> cases h
      rw [if_pos ‹_›]; rfl
  | rotSet v =>
    simp only [exec, execRotSet] at h ⊢
    split at h <;> cases h
    rw [if_pos (by assumption)]; rfl
  | rotEdge now b =>
    cases h
    rcases takeEdge_cases now b s with ⟨hl, e⟩ | ⟨hl, e⟩
    · have : discarded now s.rotT = true := by simpa [discarded] using hl
      simp [exec, execRotEdge, takeEdge, this]; rfl
    · have : discarded now s.rotT = false := by simpa [discarded] using hl
      simp [exec, execRotEdge, takeEdge, this]; rfl
  | rdsReset _ => cases h; rfl
  | rdsName => cases h; rfl
  | rdsText => cases h; rfl
  | rotGet => cases h; rfl
  | rdsPs _ _ => cases h; rfl
  | rdsRt _ _ _ => cases h; rfl
  | rdsIgn _ => cases h; rfl

end Sys2Proof.Machine
end

