-- ==== Sys2Proof/Tests/Slice0.lean ====
section
/-! SUPPORT. Tests on fixed values, taken from 95_test_vectors.md and 30_encoding.md, and one witness for the hypotheses of each
obligation that has some. -/

namespace Sys2Proof.Tests

open Sys2Proof Sys2Proof.Machine

/-! ### Helpers -/

/-- The answer is a next state with the property `p`. -/
def ran (r : Result) (p : State → Bool) : Bool :=
  match r with
  | .next t => p t
  | .fault _ => false
  | .refused _ => false

/-- The start state of 95_test_vectors.md sections 2.2 and 2.3, with the rotary cells of section 2.7. -/
def base : State :=
  { State.reset with
    ps := #v[0x41, 0x42, 0x43, 0x44, 0x45, 0x46, 0x47, 0x48],
    psStr := [0x41, 0x42, 0x43, 0x44, 0x45, 0x46, 0x47, 0x48],
    rotVal := 7, rotT := 1000 }

/-- A read burst under the default binding, bytes 12 to 31 zero (95_test_vectors.md, Conventions). -/
def burst (st b c d : Word) : List Byte :=
  [hiByte st, loByte st, 0, 0, 0, 0, hiByte b, loByte b, hiByte c, loByte c, hiByte d, loByte d] ++ List.replicate 20 0

/-- The bytes 00 to 1F of V-SH1. -/
def rising : List Byte := (List.range 32).map (BitVec.ofNat 8)

/-- `base` with a ready station-name group for slot 1 in the shadow. -/
def ready : State := base.setSh (burstWords (burst 0x8000 0x0001 0xAAAA 0x5859))

/-- `base` under `STALE_POLICY = SKIP`. -/
def skipping : State := { base with cfg := { Config.standard with stalePolicy := .skip } }

/-- The name buffer as numbers. -/
def name (t : State) : List Nat := t.ps.toList.map BitVec.toNat

/-- Two ticks whose refreshed shadows differ in the status word alone, not in its bit 15. -/
def onlyStatusDiffers (bus bus' : BusAnswer) (s s' : State) : Bool :=
  decide (bus = .fail ↔ bus' = .fail) && s'.cfg == s.cfg && s'.accumulator == s.accumulator &&
  ran (exec (.shRefresh bus) s) (fun u => ran (exec (.shRefresh bus') s') (fun u' =>
    decide (∀ r : Fin 16, r ≠ s.cfg.regStatus → u'.sh[r] = u.sh[r]) &&
    u'.sh[s.cfg.regStatus].getLsbD 15 == u.sh[s.cfg.regStatus].getLsbD 15 &&
    u'.sh[s.cfg.regStatus] != u.sh[s.cfg.regStatus])) &&
  s.cfg.regStatus != s.cfg.regRdsb && s.cfg.regStatus != s.cfg.regRdsc && s.cfg.regStatus != s.cfg.regRdsd &&
  ran (exec (.rdsProcess bus) s) (fun _ => true) && ran (exec (.rdsProcess bus') s') (fun _ => true)

/-- A refresh that leaves block B equal to `b` in a ready shadow, not a failed read under `SKIP`. -/
def bringsGroup (bus : BusAnswer) (s₀ : State) (b c d : Word) : Bool :=
  ran (exec (.shRefresh bus) s₀) fun s =>
    (bus != .fail || s₀.cfg.stalePolicy == .proceed) && s.sh[s.cfg.regStatus].getLsbD 15 &&
    s.sh[s.cfg.regRdsb] == b && s.sh[s.cfg.regRdsc] == c && s.sh[s.cfg.regRdsd] == d

/-! ### Ill-formed operands, one for each check of WellFormed.lean -/

theorem test_wf_short_burst : (Instr.shRefresh (.ok (List.replicate 31 0))).wf = false := by decide
theorem test_wf_short_burst_tick : (Instr.rdsProcess (.ok (List.replicate 31 0))).wf = false := by decide
theorem test_wf_lo : (Instr.shCommit 16 7 .done).wf = false := by decide
theorem test_wf_hi : (Instr.shCommit 2 16 .done).wf = false := by decide
theorem test_wf_get : (Instr.shGet 16).wf = false := by decide
theorem test_wf_set_index : (Instr.shSet 16 0).wf = false := by decide
theorem test_wf_set_value : (Instr.shSet 0 0x10000).wf = false := by decide
theorem test_wf_ign_zero : (Instr.rdsIgn 0).wf = false := by decide
theorem test_wf_ign_four : (Instr.rdsIgn 4).wf = false := by decide

/-! ### Decoding, words from R91 to R95 and from V-E1, V-E2 -/

theorem test_decode_refresh : decode ⟨.command, [0x0, 0x01]⟩ = .ok (.shRefresh .fail) := by decide
theorem test_decode_commit : decode ⟨.command, [0x1, 0x02, 0x07, 0x00]⟩ = .ok (.shCommit 2 7 .done) := by decide
theorem test_decode_get : decode ⟨.command, [0x2, 0x05]⟩ = .ok (.shGet 5) := by decide
theorem test_decode_set : decode ⟨.command, [0x3, 0x05, 0xBE, 0xEF]⟩ = .ok (.shSet 5 0xBEEF) := by decide
theorem test_decode_process : decode ⟨.command, [0x4, 0x01]⟩ = .ok (.rdsProcess .fail) := by decide
theorem test_decode_reset : decode ⟨.command, [0x5, 0x01]⟩ = .ok (.rdsReset .seek) := by decide
theorem test_decode_name : decode ⟨.command, [0x6]⟩ = .ok .rdsName := by decide
theorem test_decode_text : decode ⟨.command, [0x7]⟩ = .ok .rdsText := by decide
theorem test_decode_rot_get : decode ⟨.command, [0x8]⟩ = .ok .rotGet := by decide
theorem test_decode_rot_set : decode ⟨.command, [0x9, 0x01, 0x05]⟩ = .ok (.rotSet (-5)) := by decide
theorem test_decode_edge : decode ⟨.interrupt, [0x01, 0x04, 0x1A]⟩ = .ok (.rotEdge 1050 true) := by decide
theorem test_decode_bad_command : decode ⟨.command, [0xA]⟩ = .error .badCommand := by decide
theorem test_decode_bad_bytes : decode ⟨.command, [0x2]⟩ = .error .badOperandBytes := by decide
theorem test_decode_ps_slot3 : decodeGroup 0x0003 0 0x4243 = .ps 3 0x4243 := by decide
theorem test_decode_ps_ignored_bits : decodeGroup 0x0540 0xFFFF 0x4243 = .ps 0 0x4243 := by decide
theorem test_decode_ps_last : decodeGroup 0x07FF 0 0 = .ps 3 0 := by decide
theorem test_decode_ign_first : decodeGroup 0x0800 0 0 = .ign 1 := by decide
theorem test_decode_ign_below_text : decodeGroup 0x1FFF 0 0 = .ign 3 := by decide
theorem test_decode_rt_ignored_bit : decodeGroup 0x2010 1 2 = .rt 0 1 2 := by decide
theorem test_decode_rt_last : decodeGroup 0x27FF 1 2 = .rt 15 1 2 := by decide
theorem test_decode_ign_above_text : decodeGroup 0x2800 0 0 = .ign 5 := by decide
theorem test_decode_ign_all_ones : decodeGroup 0xFFFF 0 0 = .ign 31 := by decide
theorem test_table_word : decodeTableWord 16 0x200F = some (.rdsRt 15 0 0) := by decide
theorem test_table_interrupt : decodeTableWord 0 0 = some (.rotEdge 0 false) := by decide

/-! ### The shadow store, V-SH1 to V-SH5 and Program 5 -/

theorem test_refresh_reorders :
    ran (exec (.shRefresh (.ok rising)) State.reset)
      (fun t => t.sh[0] == 0x0C0D && t.sh[5] == 0x1617 && t.sh[9] == 0x1E1F && t.sh[10] == 0x0001 && t.sh[15] == 0x0A0B) =
      true := by decide
theorem test_refresh_fail_keeps :
    ran (exec (.shRefresh .fail) (base.setSh (burstWords rising)))
      (fun t => t.sh[0] == 0x0C0D && t.out.events == [.transportReadFail]) = true := by decide
theorem test_commit_bytes :
    ran (exec (.shCommit 2 7 .done) (base.setSh (burstWords rising)))
      (fun t => t.out.busWrite ==
        some [0x10, 0x11, 0x12, 0x13, 0x14, 0x15, 0x16, 0x17, 0x18, 0x19, 0x1A, 0x1B]) = true := by decide
theorem test_commit_range : exec (.shCommit 2 6 .done) base = .refused .badCommitRange := by rfl
theorem test_set_one_word :
    ran (exec (.shSet 5 0xBEEF) State.reset) (fun t => t.sh[5] == 0xBEEF && t.sh[4] == 0) = true := by decide
theorem test_set_index_first : exec (.shSet 16 0x10000) base = .refused .badRegister := by rfl
theorem test_get_word :
    ran (exec (.shGet 0x0B) (base.setSh (burstWords rising))) (fun t => t.out.result == some (.word 0x0203)) = true := by
  decide
theorem test_get_index : exec (.shGet 16) base = .refused .badRegister := by rfl

/-! ### The tick and the groups, V-S1, V-S1b, V-G2, V-G4, V-PS, V-RT, V-IG, Program 1 -/

theorem test_tick_as_printed :
    ran (exec (.rdsProcess (.ok (burst 0x8000 0x0001 0 0x4243))) State.reset)
      (fun t => t.psStr == [0x20, 0x20, 0x42, 0x43, 0x20, 0x20, 0x20, 0x20]) = true := by decide
theorem test_tick_not_ready :
    ran (exec (.rdsProcess (.ok (burst 0x7FFF 0x0001 0 0x5859))) base)
      (fun t => t.cells == { base.cells with sh := t.sh } && t.sh[10] == 0x7FFF) = true := by decide
theorem test_name_drops_high_byte :
    ran (exec (.rdsPs 1 0x1F20) base)
      (fun t => t.psStr == [0x41, 0x42, 0x43, 0x20, 0x45, 0x46, 0x47, 0x48] && t.out.events == [.charDropped]) = true := by
  decide
theorem test_name_tilde_and_delete :
    ran (exec (.rdsPs 1 0x7E7F) base) (fun t => name t == [0x41, 0x42, 0x7E, 0x44, 0x45, 0x46, 0x47, 0x48]) = true := by
  decide
theorem test_text_leading_spaces :
    ran (exec (.rdsRt 1 0x4865 0x6C6C) State.reset)
      (fun t => t.rtStr == [0x48, 0x65, 0x6C, 0x6C] && t.rt[4] == 0x48 && t.rt[3] == 0x20) = true := by decide
theorem test_text_carriage_return :
    ran (exec (.rdsRt 2 0x6F0D 0x5858) State.reset)
      (fun t => t.rtStr == [0x6F, 0x20, 0x58, 0x58] && t.out.events == [.charDropped]) = true := by decide
theorem test_ignored_group :
    ran (exec (.rdsIgn 31) base) (fun t => t.cells == base.cells && t.out.events == [.groupIgnored 31]) = true := by decide

/-! ### The reset and the accessors, V-R1, V-R2, V-R4 -/

theorem test_reset_retune :
    ran (exec (.rdsReset .retune) ready)
      (fun t => t.psStr == [0x53, 0x63, 0x61, 0x6E, 0x6E, 0x69, 0x6E, 0x67, 0x2026] && t.rtStr == [] &&
        t.ps == Vector.replicate 8 0x20 && t.sh[10] == 0x8000) = true := by decide
theorem test_reset_seek :
    ran (exec (.rdsReset .seek) ready)
      (fun t => t.psStr == [0x53, 0x65, 0x65, 0x6B, 0x69, 0x6E, 0x67, 0x2026]) = true := by decide
theorem test_name_after_reset :
    ran (exec .rdsName State.reset) (fun t => t.out.result == some (.str [])) = true := by decide
theorem test_text_after_reset :
    ran (exec .rdsText State.reset) (fun t => t.out.result == some (.str [])) = true := by decide

/-! ### The rotary unit, V-RO2, V-RO3, V-RO7, V-RO9, V-RO13 -/

theorem test_edge_49_ms : ran (exec (.rotEdge 1049 false) base) (fun t => t.cells == base.cells) = true := by decide
theorem test_edge_clamped_moves_time :
    ran (exec (.rotEdge 1050 false) (base.setRotVal 15)) (fun t => t.rotVal == 15 && t.rotT == 1050) = true := by decide
theorem test_edge_high_decrements :
    ran (exec (.rotEdge 1050 true) base) (fun t => t.rotVal == 6 && t.rotB) = true := by decide
theorem test_edge_step_four :
    stepValue { Config.standard with rotStep := 4 } 13 false = 15 ∧
    stepValue { Config.standard with rotStep := 4 } 15 true = 11 := by decide
theorem test_rot_set_keeps_time :
    ran (exec (.rotSet 3) base) (fun t => t.rotVal == 3 && t.rotT == 1000) = true := by decide
theorem test_rot_set_range : exec (.rotSet 16) base = .refused .rotSetRange := by rfl
theorem test_rot_get : ran (exec .rotGet base) (fun t => t.out.result == some (.int 7) && t.cells == base.cells) = true := by
  decide

/-! ### Requests and power-on -/

theorem test_step_refuses_command :
    step (State.reset.setInputs [⟨.command, [0xF]⟩]) = .refused .badCommand := by rfl
theorem test_step_runs_table_row :
    ran (step (State.reset.withFetchWord 16 0x2003)) (fun t => t.sh[13] == 0x2003 && t.sh[10] == 0x8000) = true := by decide
theorem test_step_runs_command : ran (step (State.reset.withFetchWord 8 0x8)) (fun t => t.out.result == some (.int 0)) = true := by
  decide

/-- The defaults of R9 as the host binds them, with the rotary numbers of 95_test_vectors.md. -/
def raw : RawConfig where
  regStatus := 0x0A
  regRdsb := 0x0D
  regRdsc := 0x0E
  regRdsd := 0x0F
  phRetuneName := [83, 99, 97, 110, 110, 105, 110, 103, 0x2026]
  phRetuneText := []
  phSeekName := [83, 101, 101, 107, 105, 110, 103, 0x2026]
  phSeekText := []
  spelling := .ellipsis
  rotMin := 0
  rotMax := 15
  rotStep := 1
  rotStart := 0
  rotPol := .highDec
  t0 := 0
  stalePolicy := .proceed
  busAddr := none
  rotB0 := false

theorem test_power_on : powerOn raw = .next State.reset := by rfl
theorem test_power_on_step_zero : powerOn { raw with rotStep := 0 } = .refused .badConfig := by rfl

/-! ### The environment, V-S2 and the tables P1 and P3 of 95_test_vectors.md -/

theorem test_channels :
    Env.channelOf (175 / 2) = 0 ∧ Env.channelOf 50 = 0 ∧ Env.channelOf (1013 / 10) = 138 ∧ Env.channelOf (217 / 2) = 205 := by
  decide +kernel
theorem test_volume_field : Env.withLow4 0x0A57 (BitVec.ofNat 4 (Env.volumeOf 20).val) = 0x0A5F := by decide
theorem test_channel_field : Env.withLow9 0x8000 125 = 0x807D := by decide

/-! ### Witnesses: the hypotheses of each obligation that has some are met -/

theorem test_witness_DecodeInvertsEncode :
    (Instr.shSet 15 0xFFFF).wf = true ∧ (Instr.rdsIgn 31).wf = true ∧ (Instr.shRefresh (.ok rising)).wf = true ∧
    (Instr.shCommit 15 0 .fail).wf = true := by decide
theorem test_witness_GroupTypeSelectsOperation :
    ((0x07FF : Word) >>> 11).toNat = 0 ∧ ((0x27FF : Word) >>> 11).toNat = 4 ∧
    ((0x2800 : Word) >>> 11).toNat ≠ 0 ∧ ((0x2800 : Word) >>> 11).toNat ≠ 4 := by decide
theorem test_witness_IgnoredBitsDoNotMatter :
    ((0x0003 : Word) >>> 11 = 0x07FF >>> 11 ∧ (0x0003 : Word) >>> 11 = 0 ∧ (0x0003 : Word) &&& 0x3 = 0x07FF &&& 0x3) ∧
    ((0x2001 : Word) >>> 11 = 0x27F1 >>> 11 ∧ (0x2001 : Word) >>> 11 = 4 ∧ (0x2001 : Word) &&& 0xF = 0x27F1 &&& 0xF) ∧
    ((0x0800 : Word) >>> 11 = 0x0FFF >>> 11 ∧ (0x0800 : Word) >>> 11 ≠ 0 ∧ (0x0800 : Word) >>> 11 ≠ 4) := by decide
theorem test_witness_CommandCodesDecode :
    9 < (0x0A : Byte).toNat ∧ 9 < (0xFF : Byte).toNat ∧
    (State.reset.setInputs [⟨.command, [0xA]⟩]).inputs = ⟨.command, 0xA :: []⟩ :: [] := by decide
theorem test_witness_StepRunsDecodedOperation :
    (base.setInputs [⟨.command, [0x6]⟩]).inputs = ⟨.command, [0x6]⟩ :: [] ∧ decode ⟨.command, [0x6]⟩ = .ok .rdsName ∧
    decode ⟨.command, []⟩ = .error .badCommand ∧ decode ⟨.interrupt, []⟩ = .error .badOperandBytes ∧
    base.inputs = [] := by decide
theorem test_witness_PlacedGroupRunsInsideTick :
    [base.cfg.regStatus, base.cfg.regRdsb, base.cfg.regRdsc, base.cfg.regRdsd].Nodup := by decide
theorem test_witness_StepKeepsParametersAndConsumesOneRequest :
    ran (step (base.setInputs [⟨.command, [0x9, 0x00, 0x03]⟩])) (fun t => t.inputs == []) = true := by decide
theorem test_witness_OutOfContractOperandsRefusedByName :
    15 < 16 ∧ (15 ≤ 15 ∧ 0xFFFF < 0x10000) ∧ (2 ≠ 2 ∨ 6 ≠ 7) ∧ (List.replicate 33 (0 : Byte)).length ≠ 32 ∧
    ((-1 : Int) < base.cfg.rotMin ∨ base.cfg.rotMax < (-1 : Int)) ∧
    ((16 : Int) < base.cfg.rotMin ∨ base.cfg.rotMax < (16 : Int)) := by decide
theorem test_witness_burst : rising.length = 32 ∧ (burst 0x8000 1 2 3).length = 32 ∧ BusAnswer.fail.wf = true ∧
    (BusAnswer.ok rising).wf = true := by decide
theorem test_witness_FailedRefreshChangesNothing :
    ran (exec (.shRefresh (.ok (burst 0x8000 0x0001 0xAAAA 0x5859))) ready) (fun t => t.sh == ready.sh) = true ∧
    ran (exec (.shRefresh .fail) ready) (fun _ => true) = true := by decide
theorem test_witness_GetReturnsShadowWord : 0 ≤ 15 ∧ 15 ≤ 15 := by decide
theorem test_witness_SetWritesOneShadowWord : (15 ≤ 15 ∧ 0xFFFF ≤ 0xFFFF) ∧ 14 ≠ 15 := by decide
theorem test_witness_RefreshDiscardsUncommittedSet :
    rising.length = 32 ∧ ran (exec (.shSet 3 0x80CD) base) (fun t => t.sh[3] == 0x80CD) = true := by decide
theorem test_witness_DataReadyFlagChangesOnlyByReadOrSet :
    ran (exec (.shSet 10 0x8000) base)
      (fun t => t.sh[base.cfg.regStatus].getLsbD 15 != base.sh[base.cfg.regStatus].getLsbD 15) = true ∧
    ran (exec (.rdsProcess (.ok (burst 0x8000 0x0800 0 0))) base)
      (fun t => t.sh[base.cfg.regStatus].getLsbD 15 != base.sh[base.cfg.regStatus].getLsbD 15) = true := by decide
theorem test_witness_DataNotReadyLeavesAccumulator :
    ran (exec (.shRefresh (.ok (burst 0x7FFF 1 2 3))) ready)
      (fun u => !u.sh[ready.cfg.regStatus].getLsbD 15 &&
        ran (exec (.rdsProcess (.ok (burst 0x7FFF 1 2 3))) ready) (fun _ => true)) = true := by decide
theorem test_witness_DataReadyRunsSelectedGroup :
    ran (exec (.shRefresh .fail) ready)
      (fun u => u.sh[ready.cfg.regStatus].getLsbD 15 && decide (ready.cfg.stalePolicy = .proceed)) = true ∧
    ran (exec (.shRefresh (.ok (burst 0x8000 0x2000 1 2))) skipping)
      (fun u => u.sh[skipping.cfg.regStatus].getLsbD 15) = true := by decide
theorem test_witness_SkipPolicyEndsTickAtFailedRead : skipping.cfg.stalePolicy = .skip := by decide
theorem test_witness_OtherStatusBitsDoNotMatter :
    onlyStatusDiffers (.ok (burst 0x8000 0x0001 0xAAAA 0x5859)) (.ok (burst 0xFFFF 0x0001 0xAAAA 0x5859)) base base = true ∧
    onlyStatusDiffers .fail .fail ready (ready.setSh (ready.sh.set 10 0xFFFF)) = true := by decide
theorem test_witness_group_masks :
    (0x07FF : Word) &&& 0xF800 = 0 ∧ (0x27FF : Word) &&& 0xF800 = 0x2000 ∧
    ((0x0800 : Word) &&& 0xF800 ≠ 0 ∧ (0x0800 : Word) &&& 0xF800 ≠ 0x2000) ∧
    ((0xFFFF : Word) &&& 0xF800 ≠ 0 ∧ (0xFFFF : Word) &&& 0xF800 ≠ 0x2000) := by decide
theorem test_witness_group_in_ready_shadow :
    ([(0x0001 : Word), 0x2003, 0x0800].all fun b =>
      bringsGroup (.ok (burst 0x8000 b 0x4865 0x5859)) skipping b 0x4865 0x5859) = true ∧
    bringsGroup .fail ready 0x0001 0xAAAA 0x5859 = true := by decide
theorem test_witness_TextGroupWritesItsSlot :
    [(0x2041 : Word).extractLsb' 8 8, (0x2041 : Word).extractLsb' 0 8, (0x2020 : Word).extractLsb' 8 8,
      (0x2020 : Word).extractLsb' 0 8][(1 : Fin 4)]? = some (0x41 : Byte) ∧
    (64 < (0x200F &&& 15 : Word).toNat * 4 ∨ (0x200F &&& 15 : Word).toNat * 4 + 4 ≤ 64) := by decide
theorem test_witness_TickTouchesOneAlignedSlot :
    ([(0x0003 : Word), 0x200F, 0x0800].all fun b =>
      ran (exec (.shRefresh (.ok (burst 0x8000 b 0x4865 0x5859))) base) (fun u =>
        u.sh[base.cfg.regRdsb] == b &&
        ran (exec (.rdsProcess (.ok (burst 0x8000 b 0x4865 0x5859))) base) (fun _ => true))) = true ∧
    ran (exec (.shRefresh .fail) base) (fun u =>
      !u.sh[base.cfg.regStatus].getLsbD 15 && ran (exec (.rdsProcess .fail) base) (fun _ => true)) = true ∧
    (0 ≠ psIndex 3 ∧ 0 ≠ psIndex 3 + 1) ∧ (59 < rtIndex 15 ∨ rtIndex 15 + 4 ≤ 59) ∧
    (63 < rtIndex 0 ∨ rtIndex 0 + 4 ≤ 63) ∧
    ran (exec (.rdsReset .seek) ready) (fun t => t.ps != ready.ps) = true := by decide
theorem test_witness_GroupsAreIsolatedToSlots :
    ran (exec (.rdsPs 1 0x5859) base) (fun t => t.ps[2] == 0x58) = true ∧ (0 ≠ (1 : BitVec 2).toNat * 2 ∧
      0 ≠ (1 : BitVec 2).toNat * 2 + 1) ∧
    ran (exec (.rdsRt 15 0x4865 0x6C6C) base) (fun t => t.rt[60] == 0x48) = true ∧
    (32 ≤ ((0x207E : Word).extractLsb' 8 8).toNat ∧ ((0x207E : Word).extractLsb' 8 8).toNat ≤ 126 ∧
      32 ≤ ((0x207E : Word).extractLsb' 0 8).toNat ∧ ((0x207E : Word).extractLsb' 0 8).toNat ≤ 126) ∧
    ran (exec (.rdsPs 1 0x207E) base) (fun _ => true) = true := by decide
theorem test_witness_RepeatedGroupEqualsOne :
    ran (exec (Group.ps 1 0x5859).toInstr base) (fun t => t.cells != base.cells) = true ∧
    ran (exec (.rdsProcess (.ok (burst 0x8000 0x2000 0x4865 0x6C6C))) base) (fun t => t.rt != base.rt) = true := by decide
theorem test_witness_GroupsOnDifferentSlotsCommute :
    ran (exec (.rdsPs 0 0x5859) base) (fun s₁ => ran (exec (.rdsPs 3 0x0041) s₁) (fun _ => true)) = true ∧
    ran (exec (.rdsPs 3 0x0041) base) (fun s₂ => ran (exec (.rdsPs 0 0x5859) s₂) (fun _ => true)) = true ∧
    ran (exec (.rdsRt 0 1 0x5859) base) (fun s₁ => ran (exec (.rdsRt 15 2 0x0041) s₁) (fun _ => true)) = true ∧
    ran (exec (.rdsRt 15 2 0x0041) base) (fun s₂ => ran (exec (.rdsRt 0 1 0x5859) s₂) (fun _ => true)) = true ∧
    (0 : BitVec 2) ≠ 3 ∧ (0 : BitVec 4) ≠ 15 := by decide
theorem test_witness_AccessorsReturnCachedStrings :
    ran (exec (.rdsPs 1 0x5859) base) (fun t => t.ps != base.ps) = true ∧
    ran (exec (.rdsProcess (.ok (burst 0x8000 0x2000 0x4865 0x6C6C))) base) (fun t => t.rt != base.rt) = true ∧
    (∀ cause, Instr.rdsPs 1 0x5859 ≠ .rdsReset cause) := ⟨by decide, by decide, by intro cause h; cases h⟩
theorem test_witness_AccessorsAreInvisible :
    ran (exec .rdsName ready) (fun _ => true) = true ∧ ran (exec .rdsText ready) (fun _ => true) = true := by decide
theorem test_witness_WrittenCharacterShowsAtOnce :
    (∃ ch ∈ [(0x0042 : Word).extractLsb' 8 8, (0x0042 : Word).extractLsb' 0 8], 32 ≤ ch.toNat ∧ ch.toNat ≤ 126) ∧
    (∃ ch ∈ [(0x0000 : Word).extractLsb' 8 8, (0x0000 : Word).extractLsb' 0 8, (0x007E : Word).extractLsb' 8 8,
      (0x007E : Word).extractLsb' 0 8], 32 ≤ ch.toNat ∧ ch.toNat ≤ 126) ∧
    ran (exec (.rdsPs 0 0x4142) { base with psStr := [] }) (fun t => t.ps == base.ps && t.psStr == base.psStr) = true := by
  decide
theorem test_witness_StaleGroupSurvivesReset :
    ran (exec (.rdsReset .retune) ready) (fun _ => true) = true ∧ ready.sh[ready.cfg.regStatus].getLsbD 15 = true ∧
    ready.cfg.stalePolicy = .proceed ∧
    ran (exec (.rdsReset .seek) (skipping.setSh ready.sh)) (fun _ => true) = true ∧
    (skipping.setSh ready.sh).sh[(skipping.setSh ready.sh).cfg.regStatus].getLsbD 15 = true ∧
    (skipping.setSh ready.sh).cfg.stalePolicy = .skip := by decide
theorem test_witness_DecodedNameIsNeverAPlaceholder :
    (∃ ch ∈ [(0x5859 : Word).extractLsb' 8 8, (0x5859 : Word).extractLsb' 0 8], 32 ≤ ch.toNat ∧ ch.toNat ≤ 126) ∧
    ran (exec (.rdsPs 1 0x5859) base) (fun t => ran (exec .rdsName t) (fun _ => true) &&
      ran (exec (.rdsReset .retune) t) (fun u => ran (exec .rdsName u) (fun _ => true)) &&
      ran (exec (.rdsReset .seek) t) (fun u => ran (exec .rdsName u) (fun _ => true))) = true := by decide
theorem test_witness_DebounceWindowIsNotExtended :
    ((1049 : Nat) : Int) - (base.rotT : Int) < 50 ∧ ((0 : Nat) : Int) - (base.rotT : Int) < 50 ∧
    (∀ e ∈ [((1010 : Nat), true), (1049, false)], (e.1 : Int) - (base.rotT : Int) < 50) ∧ base.rotT + 50 ≤ 1050 := by decide
theorem test_witness_AcceptedEdgeStepsAndClamps :
    50 ≤ ((1050 : Nat) : Int) - (base.rotT : Int) ∧ base.cfg.rotMin ≤ base.cfg.rotMax ∧ base.cfg.WF ∧
    (base.setRotVal 15).rotVal = base.cfg.rotMax ∧ (base.setRotVal 0).rotVal = base.cfg.rotMin ∧
    ¬((false = true ∧ base.cfg.rotPol = .highDec) ∨ (false = false ∧ base.cfg.rotPol = .highInc)) ∧
    ((true = true ∧ base.cfg.rotPol = .highDec) ∨ (true = false ∧ base.cfg.rotPol = .highInc)) := by decide
theorem test_witness_AcceptedEdgeRecordsTimeAndLevel :
    50 ≤ ((1050 : Nat) : Int) - (base.rotT : Int) ∧ ((1049 : Nat) : Int) - (base.rotT : Int) < 50 := by decide
theorem test_witness_ValueMovesAtMostOneStepPerAcceptedEdge :
    base.cfg.WF ∧ RotaryInv base ∧ (∀ v, Instr.rotSet v ∉ [Instr.rotEdge 1050 true, .rotGet]) ∧
    ran (execAll [.rotEdge 1050 true, .rotGet] base) (fun t => t.rotVal == 6) = true :=
  ⟨by decide, ⟨by decide, by decide⟩, by intro v h; simp at h, by decide⟩
theorem test_witness_GetValueReturnsRotaryValue : RotaryInv base := ⟨by decide, by decide⟩
theorem test_witness_SetValueStoresOnlyTheValue :
    (base.cfg.rotMin ≤ 0 ∧ (0 : Int) ≤ base.cfg.rotMax) ∧ (base.cfg.rotMin ≤ 15 ∧ (15 : Int) ≤ base.cfg.rotMax) ∧
    ran (exec (.rotEdge 1050 false) base) (fun _ => true) = true := by decide
theorem test_base_invariant : BlockInv base :=
  ⟨by decide, ⟨by unfold AllPrintable; decide, blank_allPrintable 64⟩, ⟨by decide, by decide⟩, .inl (by decide),
    .inr ⟨rfl, .inl rfl⟩⟩
theorem test_witness_StepKeepsInvariant :
    BlockInv (base.setInputs [⟨.command, [0x4, 0x01]⟩]) ∧
    ran (step (base.setInputs [⟨.command, [0x4, 0x01]⟩])) (fun _ => true) = true :=
  ⟨test_base_invariant, by decide⟩
theorem test_witness_PowerOnChecksConfiguration :
    RawConfig.Valid raw ∧ ¬ RawConfig.Valid { raw with regStatus := 16 } ∧
    ¬ RawConfig.Valid { raw with phSeekText := [0x21] } := by
  simp [RawConfig.Valid, raw, admittedPlaceholders]
theorem test_witness_RunsStartFromCheckedConfigurations :
    RawConfig.Valid raw ∧ ¬ RawConfig.Valid { raw with rotStep := 0 } := by
  simp [RawConfig.Valid, raw, admittedPlaceholders]
theorem test_witness_every_operation_completes :
    ([Instr.shRefresh .fail, .shCommit 2 7 .fail, .shGet 15, .shSet 15 0xFFFF, .rdsProcess .fail, .rdsReset .seek, .rdsName,
      .rdsText, .rotGet, .rotSet 15, .rotEdge 1050 true, .rdsPs 3 0x5859, .rdsRt 15 0x4865 0x6C6C, .rdsIgn 1].all
      fun i => ran (exec i ready) (fun _ => true)) = true := by decide
theorem test_witness_ContextsWriteOnlyTheirCells :
    ran (step (base.setInputs [⟨.command, [0x9, 0x00, 0x03]⟩])) (fun t => t.rotVal == 3) = true ∧
    ran (step (base.setInputs [⟨.interrupt, [0x01, 0x04, 0x1A]⟩])) (fun t => t.rotVal == 6) = true := by decide
theorem test_witness_UnitsDoNotInterfere :
    (base.setRotVal 3).cfg = base.cfg ∧ (base.setRotVal 3).rdsUnit = base.rdsUnit ∧
    ready.cfg = base.cfg ∧ ready.rotUnit = base.rotUnit ∧
    ran (exec (.rdsProcess .fail) base) (fun _ => true) = true ∧
    ran (exec (.rdsProcess .fail) (base.setRotVal 3)) (fun _ => true) = true ∧
    ran (exec .rotGet base) (fun _ => true) = true ∧ ran (exec .rotGet ready) (fun _ => true) = true := by decide
theorem test_witness_EdgeCommutesWithMainLoopOperations :
    isRotary (.rdsProcess .fail) = false ∧ ran (exec (.rdsProcess .fail) ready) (fun _ => true) = true := by decide

/-- A placement of the chip's fields, for the witness alone. -/
def chip : Env.Chip where
  regChan := 1
  regAudio := 3
  regPwr := 0
  regReadchan := 11
  regRssi := 10
  lowReadchan := 0
  widthReadchan := 10
  lowRssi := 0
  bitTune := 15
  bitMute := 14
  bitPower := 0
  bitSeekDir := 9
  bitSeekEn := 8
  bitStc := 14
  flipInverts := false
  muteLevel := false
  powerLevel := true

/-- A TunerState and a main loop, for the witnesses alone. -/
def tuner : Env.Tuner := ⟨138, 7, false, true⟩

/-- A main loop and its surroundings. -/
def world (suspended : Bool) (lastToggle lastEdge : Option Nat) : Env.Surroundings :=
  ⟨⟨tuner, .frequency, 0, lastToggle, 0, suspended⟩, lastEdge⟩

/-- The procedure completes, with the property `p`. -/
def did {α : Type} (r : Host.Outcome (Env.Done α) Fault Refusal) (p : Env.Done α → Bool) : Bool :=
  match r with
  | .next d => p d
  | .fault _ => false
  | .refused _ => false

/-- A burst whose status word has the seek-complete bit of `chip` set (`true`) or clear. -/
def status (complete : Bool) : BusAnswer := .ok (burst (if complete then 0x4000 else 0) 0 0 0)

theorem test_witness_SeekSetsThenClearsEnable_found :
    did (Env.seek chip 0 .atEnd [status true] [status true, status false] .fail .done .done tuner base)
      (fun d => d.value.1 != .waiting) = true := by
  unfold Env.seek
  generalize Config.seekDirectionBit (Config.clampSeekDirection 0) = b
  cases b <;> decide +kernel
theorem test_witness_SeekSetsThenClearsEnable_waiting :
    did (Env.seek chip 0 .afterComplete [status true] [status true] .fail .done .done tuner base)
      (fun d => d.value.1 == .waiting && d.state.psStr != base.psStr) = true ∧
    did (Env.seek chip 0 .afterComplete [status false] [] .fail .done .done tuner base)
      (fun d => d.value.1 == .waiting && d.state.psStr == base.psStr) = true := by
  unfold Env.seek
  generalize Config.seekDirectionBit (Config.clampSeekDirection 0) = b
  cases b <;> decide +kernel
theorem test_button :
    (Env.pollButton 500 true (world false none none).loop).mode = .frequency ∧
    (Env.pollButton 500 false (world false none none).loop).mode = .volume ∧
    (Env.pollButton 799 false (world false (some 500) none).loop).mode = .frequency ∧
    (Env.pollButton 801 false (world false (some 500) none).loop).mode = .volume := by decide
theorem test_volume_clamps :
    did (Env.setVolume chip 16 .fail .done tuner base)
      (fun d => d.value.volume == 15 && d.outs.head?.map (fun o => o.events) == some [.inputClamped]) = true ∧
    did (Env.setVolume chip (-1) .fail .done tuner base) (fun d => d.value.volume == 0) = true := by decide
theorem test_run_from_reset :
    runFromReset raw [⟨.command, [0x8]⟩, ⟨.interrupt, [0x00, 0x31]⟩] =
      .next ⟨State.reset.setOut { events := [.edgeDiscarded] },
        [{ result := some (.int 0) }, { events := [.edgeDiscarded] }]⟩ := by rfl
theorem test_run_refuses_configuration :
    runFromReset { raw with rotStart := 16 } [⟨.command, [0x8]⟩] = .refused .badConfig := by rfl
theorem test_witness_RunReturnsEveryOutput :
    [(⟨.command, [0x8]⟩ : Request), ⟨.command, [0x6]⟩].map decode = [Instr.rotGet, .rdsName].map .ok ∧
    (match runOps [.rotGet, .rdsName] base with
      | .next r => r.outs.length == 2
      | .fault _ => false
      | .refused _ => false) = true := by decide
theorem test_witness_HungSeekStarvesTheDecoder :
    (world false none none).loop.suspended = false ∧ (world false none none).loop.tuner = tuner ∧
    (world true none none).loop.suspended = true ∧
    did (Env.actAll chip [.getRssi .fail, .edge 1050 true] (world true none none) base)
      (fun d => d.state.rotVal == 6 && d.outs.length == 1) = true := by decide
theorem test_witness_HostKeepsItsClockDuty :
    999 < base.rotT ∧ (world false none (some 1100)).lastEdge = some 1100 ∧ 1099 < 1100 ∧ base.rotT ≤ 1000 ∧
    (∀ last, (world false none (some 1000)).lastEdge = some last → last ≤ 1000) ∧
    (world false none none).loop.suspended = false ∧ decode ⟨.command, [0x9, 0x00, 0x03]⟩ = .ok (.rotSet 3) ∧
    decode ⟨.command, [0x9, 0x00, 0x10]⟩ = .ok (.rotSet 16) ∧
    ran (exec (.rotSet 3) base) (fun _ => true) = true ∧ exec (.rotSet 16) base = .refused .rotSetRange :=
  ⟨by decide, rfl, by decide, by decide, by intro last h; cases h; decide, by decide, by decide, by decide, by decide, rfl⟩
theorem test_host_operation_and_clock :
    did (Env.runHost chip raw [.command [0x9, 0x00, 0x03], .edge 50 true, .command [0x8]] (world true none none).loop)
      (fun d => d.state.out.result == some (.int 2) && d.outs.length == 3) = true ∧
    Env.runHost chip raw [.command [0x9, 0x00, 0x03], .edge 50 true, .edge 49 true] (world true none none).loop =
      .refused .clockBackwards := ⟨by decide, by rfl⟩

theorem test_witness_SetVolumeReplacesLowFourBits : (BusAnswer.ok rising).wf = true ∧ BusAnswer.fail.wf = true := by decide
theorem test_witness_SetFrequencyStoresChannelAndResets : BusAnswer.fail.wf = true ∧ 9 ≤ chip.bitTune.val := by decide

end Sys2Proof.Tests
end

/-! Proofs about 20_memory.md: the buffer positions a tick can address (R54) and the write block of a commit (R53). -/

namespace Sys2Proof.Machine

/-! ### Which buffer positions an operation can change -/

/-- A run of character writes leaves every position outside the run as it was (R54). -/
theorem putChars_get_outside {n : Nat} (buf : Vector Byte n) (cs : List Byte) {i j : Nat} (hj : j < n)
    (h : j < i ∨ i + cs.length ≤ j) : (putChars buf i cs)[j] = buf[j] := by
  rw [putChars_get]
  rcases h with hbelow | habove
  · cases cs[j - i]? <;> simp [Nat.not_le.mpr hbelow]
  · rw [List.getElem?_eq_none (by omega)]

/-- From `s` to `t`, no buffer position changes but those of the slot the group `g` addresses (R54). -/
def KeepsOtherPositions (g : Group) (s t : State) : Prop :=
  match g with
  | .ps seg _ => t.rt = s.rt ∧ ∀ j : Fin 8, j.val ≠ psIndex seg → j.val ≠ psIndex seg + 1 → t.ps[j] = s.ps[j]
  | .rt seg _ _ => t.ps = s.ps ∧ ∀ j : Fin 64, (j.val < rtIndex seg ∨ rtIndex seg + 4 ≤ j.val) → t.rt[j] = s.rt[j]
  | .ign _ => t.ps = s.ps ∧ t.rt = s.rt

theorem keepsOtherPositions_of_buffers_eq (g : Group) {s t : State} (hps : t.ps = s.ps) (hrt : t.rt = s.rt) :
    KeepsOtherPositions g s t := by
  cases g with
  | ps seg d => exact ⟨hrt, fun j _ _ => by rw [hps]⟩
  | rt seg c d => exact ⟨hps, fun j _ => by rw [hrt]⟩
  | ign gt => exact ⟨hps, hrt⟩

theorem KeepsOtherPositions.setOut {g : Group} {s t : State} (h : KeepsOtherPositions g s t) (o : Output) :
    KeepsOtherPositions g s (t.setOut o) := h

/-- A group operation writes two characters from its station-name index, four from its radio-text index, or none. -/
theorem runGroup_keepsOtherPositions {g : Group} {s t : State} (h : runGroup g s = .next t) :
    KeepsOtherPositions g s t := by
  cases g with
  | ps seg d =>
    cases h
    have outside (j : Fin 8) (h₀ : j.val ≠ psIndex seg) (h₁ : j.val ≠ psIndex seg + 1) :
        j.val < psIndex seg ∨ psIndex seg + (psChars d).length ≤ j.val := by
      simp only [psChars, charPair, List.length_cons, List.length_nil]
      omega
    exact ⟨rfl, fun j h₀ h₁ => putChars_get_outside s.ps (psChars d) j.isLt (outside j h₀ h₁)⟩
  | rt seg c d =>
    cases h
    exact ⟨rfl, fun j hj => putChars_get_outside s.rt (rtChars c d) j.isLt hj⟩
  | ign gt =>
    cases h
    exact ⟨rfl, rfl⟩

/-! ### The refresh inside a tick -/

/-- A refresh writes the shadow alone (R110, R111). -/
theorem refreshShadow_frame {bus : BusAnswer} {s v : State} {ev : List Event}
    (h : refreshShadow bus s = .ok (v, ev)) : v.ps = s.ps ∧ v.rt = s.rt ∧ v.cfg = s.cfg := by
  rcases refreshShadow_cases bus s with ⟨-, e⟩ | ⟨w, -, -, e⟩ | ⟨w, -, -, e⟩ <;>
    simp only [e, Except.ok.injEq, Prod.mk.injEq, reduceCtorEq] at h
  · obtain ⟨rfl, -⟩ := h
    simp
  · obtain ⟨rfl, -⟩ := h
    simp

/-- A completed `SH_REFRESH` ends in the refreshed state, with the refresh's events as its output. -/
theorem execShRefresh_eq_next {bus : BusAnswer} {s u : State} (h : execShRefresh bus s = .next u) :
    ∃ v ev, refreshShadow bus s = .ok (v, ev) ∧ u = v.setOut { events := ev } := by
  unfold execShRefresh at h
  cases hr : refreshShadow bus s with
  | error r => simp [hr] at h
  | ok p =>
    obtain ⟨v, ev⟩ := p
    simp only [hr, finish, Host.Outcome.next.injEq] at h
    exact ⟨v, ev, rfl, h.symm⟩

/-- A completed tick ends, up to its output, in the refreshed state `v` or, if the flag of `v` is set, in what the group in
the shadow of `v` makes of it (R150 to R155). -/
theorem execRdsProcess_eq_next {bus : BusAnswer} {s t : State} (h : execRdsProcess bus s = .next t) :
    ∃ v ev, refreshShadow bus s = .ok (v, ev) ∧
      ((∃ o, t = v.setOut o) ∨
       (dataReady v = true ∧ ∃ x o, runGroup (readGroup v) v = .next x ∧ t = x.setOut o)) := by
  rcases execRdsProcess_cases bus s with ⟨r, -, e⟩ | ⟨v, ev, hv, ⟨-, e⟩ | ⟨-, e⟩⟩ <;> rw [e] at h
  · cases h
  · cases h
    exact ⟨v, ev, hv, .inl ⟨_, rfl⟩⟩
  · refine ⟨v, ev, hv, ?_⟩
    rcases decodeTick_cases ev v with ⟨-, e'⟩ | ⟨hready, x, hx, e'⟩ <;> rw [e'] at h <;> cases h
    · exact .inl ⟨_, rfl⟩
    · exact .inr ⟨hready, x, _, hx, rfl⟩

/-- What a tick leaves of the buffers of the refreshed state `v`: both if the flag is clear, and in every case all but the
slot of the group in the shadow (R54, R153). -/
theorem execRdsProcess_buffers {bus : BusAnswer} {s v t : State} {ev : List Event}
    (hv : refreshShadow bus s = .ok (v, ev)) (ht : execRdsProcess bus s = .next t) :
    (dataReady v = false → t.ps = v.ps ∧ t.rt = v.rt) ∧ KeepsOtherPositions (readGroup v) v t := by
  obtain ⟨v', ev', hv', h⟩ := execRdsProcess_eq_next ht
  cases hv.symm.trans hv'
  rcases h with ⟨o, rfl⟩ | ⟨hready, x, o, hx, rfl⟩
  · exact ⟨fun _ => ⟨rfl, rfl⟩, keepsOtherPositions_of_buffers_eq _ rfl rfl⟩
  · exact ⟨fun hclear => by simp [hready] at hclear, (runGroup_keepsOtherPositions hx).setOut o⟩

/-! ### The indices and the reset -/

theorem psIndex_mem (seg : BitVec 2) : psIndex seg ∈ [0, 2, 4, 6] := by
  revert seg
  decide

theorem rtIndex_mod_four (seg : BitVec 4) : rtIndex seg % 4 = 0 := Nat.mul_mod_left seg.toNat 4

/-- `RDS_RESET` leaves both buffers all spaces (R180). -/
theorem execRdsReset_buffers {cause : Cause} {s t : State} (h : execRdsReset cause s = .next t) :
    t.ps = Vector.replicate 8 0x20 ∧ t.rt = Vector.replicate 64 0x20 := by
  cases h
  exact ⟨rfl, rfl⟩

/-- Settles O27: a tick is a refresh, which keeps the buffers, followed at most by the group in the shadow, whose character
writes stay inside its slot. -/
theorem tickTouchesOneAlignedSlot : Obligations.TickTouchesOneAlignedSlot := by
  refine ⟨?_, psIndex_mem, fun seg => ⟨rtIndex_mod_four seg, rtIndex_le seg⟩, ?_⟩
  · intro bus s u t hu ht
    obtain ⟨v, ev, hv, rfl⟩ := execShRefresh_eq_next hu
    obtain ⟨hps, hrt, hcfg⟩ := refreshShadow_frame hv
    obtain ⟨hclear, hslot⟩ := execRdsProcess_buffers hv ht
    simp only [KeepsOtherPositions, readGroup, dataReady, hps, hrt, hcfg] at hclear hslot
    exact ⟨hclear, hslot⟩
  · intro cause s t h
    obtain ⟨hps, hrt⟩ := execRdsReset_buffers h
    exact ⟨fun j => by simp [hps], fun j => by simp [hrt]⟩

/-! ### The write block -/

/-- The write block, register by register: register `2 + j` stands at bytes `2j` and `2j + 1`, high byte first (R53). -/
theorem commitBytes_get (sh : Vector Word 16) {j : Nat} (hj : j < 6) :
    sh.toList[2 + j]? = some sh[2 + j] ∧
      (commitBytes sh)[2 * j]? = some (hiByte sh[2 + j]) ∧ (commitBytes sh)[2 * j + 1]? = some (loByte sh[2 + j]) := by
  refine ⟨by simp, ?_⟩
  interval_cases j <;> exact ⟨rfl, rfl⟩

/-- The write range (0x02, 0x07) is always accepted: only the output changes, and it holds the write block and no result (R113). -/
theorem execShCommit_writeRange (ack : WriteAnswer) (s : State) :
    ∃ o : Output, execShCommit 0x02 0x07 ack s = .next (s.setOut o) ∧
      o.busWrite = some (commitBytes s.sh) ∧ o.result = none := by
  cases ack <;> exact ⟨_, rfl, rfl, rfl⟩

/-- Settles O12: the burst a commit emits is the write block of the shadow, read off register by register. -/
theorem commitEmitsWriteBlock : Obligations.CommitEmitsWriteBlock := by
  intro ack s
  obtain ⟨o, hexec, hburst, hresult⟩ := execShCommit_writeRange ack s
  have hbytes (j : Nat) (hj : j < 6) := commitBytes_get s.sh hj
  exact ⟨s.setOut o, commitBytes s.sh, hexec, hburst, rfl, fun j hj => ⟨_, hbytes j hj⟩, rfl, rfl, rfl, hresult⟩

end Sys2Proof.Machine

/-! Proofs about 30_encoding.md: the group type and the operation it selects (R90, R94). -/

namespace Sys2Proof

/-- Which group type block B has, read off the shifted word (R90). -/
theorem groupType_eq_iff (b : Word) (gt : BitVec 5) : groupType b = gt ↔ (b >>> 11).toNat = gt.toNat := by
  rw [← groupType_toNat, BitVec.toNat_inj]

/-- The shifted block B fits the five bits of the group type (R90). -/
theorem groupType_eq_ofNat_shift (b : Word) : groupType b = BitVec.ofNat 5 (b >>> 11).toNat := by
  rw [← groupType_toNat, BitVec.ofNat_toNat, BitVec.setWidth_eq]

/-- Settles O2: a condition on the shifted word is one on the group type, and each of the three rows of the map of section 4
is a branch of `decodeGroup`. -/
theorem groupTypeSelectsOperation : Obligations.GroupTypeSelectsOperation := by
  intro b c d
  have type_zero : groupType b = 0 ↔ (b >>> 11).toNat = 0 := groupType_eq_iff b 0
  have type_four : groupType b = 4 ↔ (b >>> 11).toNat = 4 := groupType_eq_iff b 4
  refine ⟨groupType_toNat b, Nat.le_of_lt_succ (groupType b).isLt, fun h₀ => ?_, fun h₄ => ?_, fun h₀ h₄ => ?_⟩
  · exact decodeGroup_ps (type_zero.mpr h₀) c d
  · exact decodeGroup_rt (type_four.mpr h₄) c d
  · rw [← groupType_eq_ofNat_shift]
    exact decodeGroup_ign (mt type_zero.mp h₀) (mt type_four.mp h₄) c d

end Sys2Proof

/-! Proofs about 40_shadow_store.md: a failed refresh (R111). -/

namespace Sys2Proof.Machine

@[simp] theorem State.setSh_self (s : State) : s.setSh s.sh = s := rfl

/-- A failed read changes nothing but the output, which is its event alone (R111). -/
theorem execShRefresh_fail (s : State) :
    execShRefresh .fail s = .next (s.setOut { events := [.transportReadFail] }) := rfl

/-- A completed `SH_REFRESH` with a successful read replaces the shadow alone, and has nothing to output (R110, R112). -/
theorem execShRefresh_ok_eq_next {w : List Byte} {s t : State} (h : execShRefresh (.ok w) s = .next t) :
    t = (s.setSh t.sh).setOut {} := by
  obtain ⟨v, ev, hv, rfl⟩ := execShRefresh_eq_next h
  by_cases hw : w.length = 32
  · rw [refreshShadow_ok hw] at hv
    cases hv
    simp
  · rw [refreshShadow_bad hw] at hv
    cases hv

/-- Settles O11: a failed read is an output on the same state, and a successful read that brings the words already in the
shadow is one too, without a result either. -/
theorem failedRefreshChangesNothing : Obligations.FailedRefreshChangesNothing := by
  intro s
  refine ⟨⟨_, execShRefresh_fail s, by simp⟩, fun w t u ht hsh hu => ?_⟩
  have ht_eq : t = s.setOut {} := by
    rw [execShRefresh_ok_eq_next ht, hsh, State.setSh_self]
  have hu_eq : u = s.setOut { events := [.transportReadFail] } :=
    Host.Outcome.next.inj (hu.symm.trans (execShRefresh_fail s))
  simp [ht_eq, hu_eq]

end Sys2Proof.Machine

/-! Proofs about 41_tuner_control_env.md: `set_volume` (R133). -/

namespace Sys2Proof.Machine

/-- On a failed or a 32-byte read, `SH_REFRESH` completes: only the shadow and the output change, and nothing is sent
(R110, R111). -/
theorem execShRefresh_next_of_wf {bus : BusAnswer} (hwf : bus.wf = true) (s : State) :
    ∃ words ev, execShRefresh bus s = .next ((s.setSh words).setOut { events := ev }) := by
  rcases refreshShadow_cases bus s with ⟨-, e⟩ | ⟨w, -, -, e⟩ | ⟨w, rfl, hlen, -⟩
  · exact ⟨s.sh, [.transportReadFail], by simp [execShRefresh, e, finish]⟩
  · exact ⟨burstWords w, [], by simp [execShRefresh, e, finish]⟩
  · simp [BusAnswer.wf, hlen] at hwf

namespace Env

theorem volumeOf_val (v : Int) : ((volumeOf v).val : Int) = max 0 (min 15 v) := by
  simp only [volumeOf, clamp]
  omega

/-- The low four bits of a word given a volume (R133). -/
theorem withLow4_volume_and (x : Word) (n : Fin 16) :
    (withLow4 x (BitVec.ofNat 4 n.val) &&& 0xF).toNat = n.val := by
  rw [withLow4_and, BitVec.toNat_setWidth, BitVec.toNat_ofNat]
  omega

/-- Noting events completes, changes no state and sends nothing. -/
theorem note_next (ev : List Event) (s : State) :
    ∃ notes : List Output, notes.filterMap (fun o => o.busWrite) = [] ∧ note ev s = .next ⟨(), s, notes⟩ := by
  refine ⟨_, ?_, note_apply ev s⟩
  split <;> rfl

/-- The shadow `set_volume` commits, of the refreshed shadow `sh` (R133). -/
def volumeShadow (chip : Chip) (v : Int) (sh : Vector Word 16) : Vector Word 16 :=
  sh.set (writeReg chip.regAudio) (withLow4 sh[writeReg chip.regAudio] (BitVec.ofNat 4 (volumeOf v).val))

theorem volumeShadow_audio (chip : Chip) (v : Int) (sh : Vector Word 16) :
    (volumeShadow chip v sh)[writeReg chip.regAudio] =
      withLow4 sh[writeReg chip.regAudio] (BitVec.ofNat 4 (volumeOf v).val) := by
  simp [volumeShadow]

theorem volumeShadow_other (chip : Chip) (v : Int) (sh : Vector Word 16) {r : Fin 16}
    (h : r ≠ writeReg chip.regAudio) : (volumeShadow chip v sh)[r] = sh[r] := by
  have hval : (writeReg chip.regAudio).val ≠ r.val := fun e => h (Fin.ext e.symm)
  simp [volumeShadow, Vector.getElem_set_ne, hval]

/-- `set_volume` after a refresh that completed in `u`: it leaves `u` with the volume in the shadow, having sent, after the
refresh, the one write block of that shadow (R133). -/
theorem setVolume_next (chip : Chip) (v : Int) {bus : BusAnswer} (ack : WriteAnswer) (tuner : Tuner) {s u : State}
    (hu : exec (.shRefresh bus) s = .next u) :
    ∃ (notes : List Output) (o : Output), notes.filterMap (fun o => o.busWrite) = [] ∧
      o.busWrite = some (commitBytes (volumeShadow chip v u.sh)) ∧
      setVolume chip v bus ack tuner s =
        .next ⟨{ tuner with volume := volumeOf v }, (u.setSh (volumeShadow chip v u.sh)).setOut o,
          notes ++ [u.out, { result := some (.word u.sh[writeReg chip.regAudio]) }, {}, o]⟩ := by
  obtain ⟨notes, hnotes, hnote⟩ := note_next (clampEvents (clamp v 0 15 = v)) s
  obtain ⟨o, hburst, -, hcommit⟩ := commit_next ack ((u.setSh (volumeShadow chip v u.sh)).setOut {})
  refine ⟨notes, o, hnotes, hburst, ?_⟩
  rw [setVolume, andThen_next hnote, andThen_next (op_next hu), andThen_next (modifyReg_next _ _ u)]
  rw [← volumeShadow, andThen_next hcommit]
  rfl

end Env

/-- Settles O54: after the refresh, `set_volume` is one change of the audio word's low four bits and one commit. -/
theorem setVolumeReplacesLowFourBits : Obligations.SetVolumeReplacesLowFourBits := by
  intro chip v bus ack tuner s hwf
  obtain ⟨words, ev, hu⟩ := execShRefresh_next_of_wf hwf s
  obtain ⟨notes, o, hnotes, hburst, hset⟩ := Env.setVolume_next chip v ack tuner hu
  refine ⟨_, _, hu, hset, ?lowBits, ?highBits, fun r hr => Env.volumeShadow_other chip v _ hr, ?bursts, rfl, rfl, rfl,
    Env.volumeOf_val v⟩
  case lowBits =>
    rw [State.setOut_sh, State.setSh_sh, Env.volumeShadow_audio, Env.withLow4_volume_and, Env.volumeOf_val]
  case highBits =>
    rw [State.setOut_sh, State.setSh_sh, Env.volumeShadow_audio, Env.withLow4_shiftRight]
  case bursts =>
    simp [hnotes, hburst]

end Sys2Proof.Machine

/-! Proofs about 42_rds_process.md: the tick never stops (R166), and what each group operation writes, alone and inside a tick
(R156 to R162, R164). -/

namespace Sys2Proof

/-! ### Block B through its mask -/

/-- The mask of the operation table keeps the group type and clears the rest of block B (R94, R103). -/
theorem and_typeMask (b : Word) : b &&& 0xF800 = groupType b ++ (0 : BitVec 11) := by
  have hmask : (0xF800 : Word) = BitVec.allOnes 5 ++ (0 : BitVec 11) := by decide
  apply BitVec.eq_of_getLsbD_eq
  intro i hi
  rw [hmask, BitVec.getLsbD_and, BitVec.getLsbD_append, BitVec.getLsbD_append, BitVec.getLsbD_allOnes]
  by_cases hlow : i < 11
  · simp [hlow]
  · simp [groupType, hlow, show i - 11 < 5 by omega, show 11 + (i - 11) = i by omega]

theorem groupType_ne_of_mask {b : Word} {gt : BitVec 5} (h : b &&& 0xF800 ≠ gt ++ (0 : BitVec 11)) : groupType b ≠ gt := by
  rintro rfl
  exact h (and_typeMask b)

end Sys2Proof

namespace Sys2Proof.Machine

/-! ### A run of characters, one character at a time -/

/-- A run writes something exactly if one of its characters is in the printable range (R158, R161). -/
theorem wrote_iff (cs : List Byte) : wrote cs = true ↔ ∃ c ∈ cs, 32 ≤ c.toNat ∧ c.toNat ≤ 126 := by
  simp [wrote, printable_iff]

theorem wrote_charPair_iff (w : Word) :
    wrote (charPair w) = true ↔
      (32 ≤ (w >>> 8).toNat ∧ (w >>> 8).toNat ≤ 126) ∨ (32 ≤ (w &&& 0xFF).toNat ∧ (w &&& 0xFF).toNat ≤ 126) := by
  rw [wrote_iff, ← hiByte_toNat, ← loByte_toNat]
  simp [charPair]

theorem droppedEvents_append (cs ds : List Byte) : droppedEvents (cs ++ ds) = droppedEvents cs ++ droppedEvents ds := by
  simp [droppedEvents]

theorem droppedEvents_singleton (c : Byte) :
    droppedEvents [c] = if 32 ≤ c.toNat ∧ c.toNat ≤ 126 then [] else [.charDropped] := by
  simp only [← printable_iff]
  cases hc : printable c <;> simp [droppedEvents, hc]

/-- The events of a word's two characters, the high byte first (R156, R159). -/
theorem droppedEvents_charPair (w : Word) :
    droppedEvents (charPair w) =
      (if 32 ≤ (w >>> 8).toNat ∧ (w >>> 8).toNat ≤ 126 then [] else [.charDropped]) ++
      (if 32 ≤ (w &&& 0xFF).toNat ∧ (w &&& 0xFF).toNat ≤ 126 then [] else [.charDropped]) := by
  rw [← hiByte_toNat, ← loByte_toNat, ← droppedEvents_singleton, ← droppedEvents_singleton, ← droppedEvents_append]
  rfl

/-- A run of two characters, position by position (R156, R157). -/
theorem putChars_pair_get {n : Nat} (buf : Vector Byte n) (i : Nat) (x y : Byte) {j : Nat} (hj : j < n) :
    (putChars buf i [x, y])[j] =
      if j = i ∧ printable x = true then x else if j = i + 1 ∧ printable y = true then y else buf[j] := by
  simp only [putChars, putChar_get, eq_comm (b := j)]
  by_cases hfirst : j = i <;> simp [hfirst]

/-- The character of a run at its `k`-th position (R157, R159). -/
theorem putChars_getElem?_run {n : Nat} (buf : Vector Byte n) {cs : List Byte} {i k : Nat} {c : Byte} (hc : cs[k]? = some c)
    (h : i + k < n) :
    (putChars buf i cs).toList[i + k]? = if printable c = true then some c else buf.toList[i + k]? := by
  have hget := putChars_get cs buf i (i + k) h
  rw [Nat.add_sub_cancel_left, hc] at hget
  by_cases hp : printable c = true <;> simpa [hp, h] using hget

/-- A run leaves the positions outside it, in the buffer and beyond its end (R164). -/
theorem putChars_getElem?_outside {n : Nat} (buf : Vector Byte n) {cs : List Byte} {i j : Nat}
    (h : j < i ∨ i + cs.length ≤ j) : (putChars buf i cs).toList[j]? = buf.toList[j]? := by
  by_cases hj : j < n
  · simp [hj, putChars_get_outside buf cs hj h]
  · simp [hj]

/-! ### The tick -/

theorem runGroup_setOut (g : Group) (s : State) (o : Output) : runGroup g (s.setOut o) = runGroup g s := by
  cases g <;> rfl

theorem runGroup_result {g : Group} {s t : State} (h : runGroup g s = .next t) : t.out.result = none := by
  cases g <;> cases h <;> rfl

theorem decodeTick_next (ev : List Event) (s : State) : ∃ t, decodeTick ev s = .next t ∧ t.out.result = none := by
  rcases decodeTick_cases ev s with ⟨-, htick⟩ | ⟨-, t, hgroup, htick⟩
  · exact ⟨_, htick, rfl⟩
  · exact ⟨_, htick, (runGroup_result hgroup :)⟩

/-- After a refresh that is not refused, the tick completes and returns nothing (R166). -/
theorem execRdsProcess_next {bus : BusAnswer} {s u : State} {ev : List Event} (h : refreshShadow bus s = .ok (u, ev)) :
    ∃ t, execRdsProcess bus s = .next t ∧ t.out.result = none := by
  rcases execRdsProcess_cases bus s with ⟨r, hr, -⟩ | ⟨v, ev', -, ⟨-, hends⟩ | ⟨-, htick⟩⟩
  · simp [h] at hr
  · exact ⟨_, hends, rfl⟩
  · rw [htick]
    exact decodeTick_next ev' v

theorem endsTick_eq_false {c : Config} {bus : BusAnswer} (h : bus ≠ .fail ∨ c.stalePolicy = .proceed) :
    endsTick c bus = false := by
  rcases h with h | h <;> simp [endsTick, h]

/-- A tick that goes on after its refresh, with the flag set, ends in what the group in the refreshed shadow makes of it, the
refresh's events first (R150 to R155). -/
theorem execRdsProcess_ready {bus : BusAnswer} {s v t : State} {ev : List Event} (hv : refreshShadow bus s = .ok (v, ev))
    (hgoes : endsTick v.cfg bus = false) (hready : dataReady v = true) (hgroup : runGroup (readGroup v) v = .next t) :
    execRdsProcess bus s = .next (t.setOut { t.out with events := ev ++ t.out.events }) := by
  simp [execRdsProcess, hv, hgoes, decodeTick, hready, hgroup, afterEvents]

/-- A tick that goes on after its refresh, with the flag set, leaves the cells that the group in the refreshed shadow leaves
(R150 to R155). -/
theorem rdsProcess_cells_of_group {s t : State} {b c d : Word} (hgroup : runGroup (decodeGroup b c d) s = .next t)
    (bus : BusAnswer) (s₀ : State) (hrefresh : exec (.shRefresh bus) s₀ = .next s)
    (hgoes : bus ≠ .fail ∨ s₀.cfg.stalePolicy = .proceed) (hready : s.sh[s.cfg.regStatus].getLsbD 15 = true)
    (hb : s.sh[s.cfg.regRdsb] = b) (hc : s.sh[s.cfg.regRdsc] = c) (hd : s.sh[s.cfg.regRdsd] = d) :
    ∃ u, exec (.rdsProcess bus) s₀ = .next u ∧ u.cells = t.cells := by
  subst hb hc hd
  obtain ⟨v, ev, hv, rfl⟩ := execShRefresh_eq_next hrefresh
  obtain ⟨-, -, hcfg⟩ := refreshShadow_frame hv
  have hrun : runGroup (readGroup v) v = .next t := (runGroup_setOut _ v _).symm.trans hgroup
  exact ⟨_, execRdsProcess_ready hv (endsTick_eq_false (hcfg ▸ hgoes)) hready hrun, t.setOut_cells _⟩

/-- Settles O18: a refresh is a failed read, a read of 32 bytes, or the one refusal; after the first two the tick completes. -/
theorem tickNeverStopsOnAnyWord : Obligations.TickNeverStopsOnAnyWord := by
  intro bus s
  rcases refreshShadow_cases bus s with ⟨rfl, h⟩ | ⟨w, rfl, hlen, h⟩ | ⟨w, rfl, hlen, h⟩
  · exact .inl ⟨rfl, execRdsProcess_next h⟩
  · exact .inl ⟨by simp [BusAnswer.wf, hlen], execRdsProcess_next h⟩
  · exact .inr ⟨w, rfl, hlen, by simp [exec, execRdsProcess, h]⟩

/-! ### The group operations -/

/-- Settles O26: the mask excludes the types 0 and 4, and the operation only gives an output. -/
theorem ignoredGroupChangesNoCell : Obligations.IgnoredGroupChangesNoCell := by
  intro b c d s h₀ h₄
  have hgroup : decodeGroup b c d = .ign (groupType b) :=
    decodeGroup_ign (groupType_ne_of_mask h₀) (groupType_ne_of_mask h₄) c d
  refine ⟨hgroup, _, rfl, rfl, rfl, rfl, rfl, rfl, rfl, ?tick⟩
  case tick => exact rdsProcess_cells_of_group (by rw [hgroup]; rfl)

/-- Settles O28: the character writes of a group stay inside its slot, and index 1 is the slot of positions 2 and 3. -/
theorem groupsAreIsolatedToSlots : Obligations.GroupsAreIsolatedToSlots := by
  refine ⟨fun seg d s t h => ?name, fun seg c d s t h => ?text, fun d s t hhi hhi' hlo hlo' h => ?indexOne⟩
  case name =>
    obtain ⟨-, hkept⟩ := runGroup_keepsOtherPositions (g := .ps seg d) h
    exact hkept
  case text =>
    obtain ⟨-, hkept⟩ := runGroup_keepsOtherPositions (g := .rt seg c d) h
    exact hkept
  case indexOne =>
    cases h
    have hx : printable (hiByte d) = true := (printable_iff _).mpr ⟨hhi, hhi'⟩
    have hy : printable (loByte d) = true := (printable_iff _).mpr ⟨hlo, hlo'⟩
    have hslot (j : Nat) (hj : j < 8) := putChars_pair_get s.ps (psIndex 1) (hiByte d) (loByte d) hj
    have hne : ¬(3 = psIndex 1 ∧ printable (hiByte d) = true) := fun heq => absurd heq.left (by decide)
    exact ⟨(hslot 2 (by decide)).trans (if_pos ⟨rfl, hx⟩),
      (hslot 3 (by decide)).trans ((if_neg hne).trans (if_pos ⟨rfl, hy⟩))⟩

/-- Settles O23: the mask fixes the group type, and the two characters of block D are written from the segment's index on. -/
theorem nameGroupWritesItsSlot : Obligations.NameGroupWritesItsSlot := by
  intro b c d s hmask
  have hgroup : decodeGroup b c d = .ps (b.extractLsb' 0 2) d := decodeGroup_ps (groupType_of_mask (k := 0) hmask) c d
  refine ⟨hgroup, _, rfl, ?slot, ?string, ?events, rfl, rfl, rfl, rfl, rfl, rfl, rfl, rfl, ?tick⟩
  case slot =>
    intro j
    simp only [← hiByte_toNat, ← loByte_toNat, ← printable_iff, ← nameSegment_toNat]
    exact putChars_pair_get s.ps (psIndex (b.extractLsb' 0 2)) (hiByte d) (loByte d) j.isLt
  case string => exact if_congr (wrote_charPair_iff d) rfl rfl
  case events => exact droppedEvents_charPair d
  case tick => exact rdsProcess_cells_of_group (by rw [hgroup]; rfl)

/-- Settles O24: the mask fixes the group type, and the four characters of blocks C and D are written from the segment's index
on. -/
theorem textGroupWritesItsSlot : Obligations.TextGroupWritesItsSlot := by
  intro b c d s hmask
  have hgroup : decodeGroup b c d = .rt (b.extractLsb' 0 4) c d := decodeGroup_rt (groupType_of_mask (k := 4) hmask) c d
  refine ⟨hgroup, _, rfl, ?slot, ?others, ?string, ?events, rfl, rfl, rfl, rfl, rfl, rfl, rfl, rfl, ?tick⟩
  case slot =>
    intro k ch hch
    simp only [← printable_iff, ← textSegment_toNat]
    have hle := rtIndex_le (b.extractLsb' 0 4)
    exact putChars_getElem?_run s.rt (cs := rtChars c d) hch (by omega)
  case others =>
    intro j hj
    simp only [← textSegment_toNat] at hj
    exact putChars_getElem?_outside s.rt (cs := rtChars c d) hj
  case string => exact if_congr (wrote_iff (rtChars c d)) rfl rfl
  case events =>
    rw [← droppedEvents_charPair, List.append_assoc, ← droppedEvents_charPair, ← droppedEvents_append]
    rfl
  case tick => exact rdsProcess_cells_of_group (by rw [hgroup]; rfl)

end Sys2Proof.Machine

/-! Proofs about 44_rotary.md: the debounce window (R191), the step of an accepted edge (R193), `ROT_GET` (R195). -/

namespace Sys2Proof.Machine

/-! ### One edge -/

theorem execRotEdge_of_elapsed_lt {now : Nat} {s : State} (h : elapsed now s.rotT < 50) (b : Bool) :
    execRotEdge now b s = .next (s.setOut { events := [.edgeDiscarded] }) := by
  rcases takeEdge_cases now b s with ⟨-, hdiscard⟩ | ⟨haccepted, -⟩
  · exact congrArg Host.Outcome.next hdiscard
  · exact absurd h (Int.not_lt.mpr haccepted)

theorem execRotEdge_of_le_elapsed {now : Nat} {s : State} (h : 50 ≤ elapsed now s.rotT) (b : Bool) :
    execRotEdge now b s = .next (((s.setEdge now b).setRotVal (stepValue s.cfg s.rotVal b)).setOut {}) := by
  rcases takeEdge_cases now b s with ⟨hdiscarded, -⟩ | ⟨-, haccept⟩
  · exact absurd hdiscarded (Int.not_lt.mpr h)
  · exact congrArg Host.Outcome.next haccept

/-! ### A train of discarded edges -/

/-- A discarded edge keeps `ROT_T`, so every later edge of the train is measured from the same time: only the output
differs at the end (R191). -/
theorem execAll_discardedEdges (es : List (Nat × Bool)) (s : State) (h : ∀ e ∈ es, elapsed e.1 s.rotT < 50) :
    ∃ o, execAll (es.map fun e => .rotEdge e.1 e.2) s = .next (s.setOut o) := by
  induction es generalizing s with
  | nil => exact ⟨s.out, rfl⟩
  | cons e es ih =>
    obtain ⟨hfirst, hrest⟩ := List.forall_mem_cons.mp h
    obtain ⟨o, hrun⟩ := ih (s.setOut { events := [.edgeDiscarded] }) hrest
    exact ⟨o, by simpa [execAll, exec, execRotEdge_of_elapsed_lt hfirst] using hrun⟩

/-- Settles O38: a discarded edge only gives an output, alone and in a train, so the window still ends 50 ms after the
last accepted edge. -/
theorem debounceWindowIsNotExtended : Obligations.DebounceWindowIsNotExtended := by
  refine ⟨fun now b s h => ?edge, fun es s h => ?train⟩
  case edge => exact ⟨_, execRotEdge_of_elapsed_lt h b, rfl, rfl, rfl, rfl⟩
  case train =>
    obtain ⟨o, hrun⟩ := execAll_discardedEdges es s h
    refine ⟨_, hrun, rfl, fun now b hnow => ?_⟩
    have helapsed : 50 ≤ elapsed now (s.setOut o).rotT := by
      simp only [elapsed, State.setOut_rotT]
      omega
    exact ⟨_, execRotEdge_of_le_elapsed helapsed b, rfl, rfl⟩

/-! ### The stepped value -/

theorem decrements_iff (pol : Polarity) (b : Bool) :
    decrements pol b = true ↔ (b = true ∧ pol = .highDec) ∨ (b = false ∧ pol = .highInc) := by
  cases pol <;> simp [decrements]

/-- One clamp of the moved value, whichever way it moves (R193). -/
theorem stepValue_eq (c : Config) (v : Int) (b : Bool) :
    stepValue c v b = clamp (if decrements c.rotPol b = true then v - c.rotStep else v + c.rotStep) c.rotMin c.rotMax :=
  (apply_ite (clamp · c.rotMin c.rotMax) _ _ _).symm

theorem stepValue_rotMax_of_increments {c : Config} (hwf : c.WF) {b : Bool} (h : ¬decrements c.rotPol b = true) :
    stepValue c c.rotMax b = c.rotMax := by
  obtain ⟨hrange, -, -, hstep⟩ := hwf
  rw [stepValue_eq, if_neg h, clamp]
  omega

theorem stepValue_rotMin_of_decrements {c : Config} (hwf : c.WF) {b : Bool} (h : decrements c.rotPol b = true) :
    stepValue c c.rotMin b = c.rotMin := by
  obtain ⟨hrange, -, -, hstep⟩ := hwf
  rw [stepValue_eq, if_pos h, clamp]
  omega

/-- Settles O39: an accepted edge stores the stepped value, a clamp of the moved one, so it is in the range and a move
past a limit ends at the limit. -/
theorem acceptedEdgeStepsAndClamps : Obligations.AcceptedEdgeStepsAndClamps := by
  intro now b s h
  simp only [← decrements_iff]
  refine ⟨_, execRotEdge_of_le_elapsed h b, stepValue_eq s.cfg s.rotVal b, rfl, rfl, rfl, rfl,
    fun hrange => stepValue_mem hrange s.rotVal b, fun hwf hmax hinc => ?atMax, fun hwf hmin hdec => ?atMin⟩
  case atMax =>
    rw [State.setOut_rotVal, State.setRotVal_rotVal, hmax]
    exact stepValue_rotMax_of_increments hwf hinc
  case atMin =>
    rw [State.setOut_rotVal, State.setRotVal_rotVal, hmin]
    exact stepValue_rotMin_of_decrements hwf hdec

/-! ### Reading the value -/

/-- Settles O42: `ROT_GET` completes on every state, and all it changes is the output. -/
theorem getValueReturnsRotaryValue : Obligations.GetValueReturnsRotaryValue := by
  intro s
  have hdecode : decode ⟨.command, [0x8]⟩ = .ok .rotGet := rfl
  have hget (u : State) : exec .rotGet u = .next (u.setOut { result := some (.int u.rotVal) }) := rfl
  exact ⟨hdecode, _, _, hget s, rfl, rfl, rfl, rfl, rfl, rfl, hget _, rfl,
    fun ⟨hmin, hmax⟩ => ⟨s.rotVal, rfl, hmin, hmax⟩⟩

end Sys2Proof.Machine

/-! Proofs about 30_encoding.md: the decoder gives back what was encoded (sections 1 to 4), the command codes (R91, R95), and the
bits that do not matter (R97). -/

namespace Sys2Proof

/-! ### Operands there and back -/

theorem decodeBus_encodeBus (bus : BusAnswer) : decodeBus (encodeBus bus) = some bus := by
  cases bus <;> rfl

theorem byte_toNat_of_le {n : Nat} (h : n ≤ 0x0F) : (BitVec.ofNat 8 n).toNat = n := by
  rw [BitVec.toNat_ofNat]
  omega

/-- The two bytes of a word spell it (R11, R55). -/
theorem natOfBytes_word (w : Word) : natOfBytes [hiByte w, loByte w] = w.toNat := by
  have hlt := w.isLt
  simp only [natOfBytes, List.foldl_cons, List.foldl_nil, hiByte, loByte, BitVec.extractLsb'_toNat,
    Nat.shiftRight_eq_div_pow]
  omega

theorem decodeCommit_bytes {lo hi : Nat} (hlo : lo ≤ 0x0F) (hhi : hi ≤ 0x0F) (ack : WriteAnswer) :
    decodeCommit [BitVec.ofNat 8 lo, BitVec.ofNat 8 hi, byteOfBit (ack == .fail)] = some (.shCommit lo hi ack) := by
  rw [decodeCommit, bitOf_byteOfBit, byte_toNat_of_le hlo, byte_toNat_of_le hhi]
  cases ack <;> rfl

theorem decodeGet_byte {reg : Nat} (hreg : reg ≤ 0x0F) : decodeGet [BitVec.ofNat 8 reg] = some (.shGet reg) := by
  rw [decodeGet, byte_toNat_of_le hreg]

theorem decodeSet_bytes {reg val : Nat} (hreg : reg ≤ 0x0F) (hval : val ≤ 0xFFFF) :
    decodeSet [BitVec.ofNat 8 reg, hiByte (BitVec.ofNat 16 val), loByte (BitVec.ofNat 16 val)] = some (.shSet reg val) := by
  rw [decodeSet, natOfBytes_word, byte_toNat_of_le hreg, BitVec.toNat_ofNat, Nat.mod_eq_of_lt (by omega)]

/-- The sign and the magnitude of an integer give it back. -/
theorem decodeRotSet_bytes (v : Int) :
    decodeRotSet (byteOfBit (decide (v < 0)) :: bytesOfNat v.natAbs) = some (.rotSet v) := by
  have hsign : (if v < 0 then -(v.natAbs : Int) else (v.natAbs : Int)) = v := by split <;> omega
  simp only [decodeRotSet, bitOf_byteOfBit, natOfBytes_bytesOfNat, Option.map_some, decide_eq_true_eq, hsign]

theorem decodeEdge_bytes (now : Nat) (b : Bool) : decodeEdge (byteOfBit b :: bytesOfNat now) = some (.rotEdge now b) := by
  rw [decodeEdge, bitOf_byteOfBit, natOfBytes_bytesOfNat, Option.map_some]

/-! ### Block B there and back -/

theorem groupType_blockB (gt : BitVec 5) (seg : BitVec 4) : groupType (blockB gt seg) = gt := by
  revert gt seg
  decide

theorem textSegment_blockB (gt : BitVec 5) (seg : BitVec 4) : (blockB gt seg).extractLsb' 0 4 = seg := by
  revert gt seg
  decide

theorem nameSegment_blockB (gt : BitVec 5) (seg : BitVec 2) : (blockB gt (seg.setWidth 4)).extractLsb' 0 2 = seg := by
  revert gt seg
  decide

theorem decodeGroup_blockB_ps (seg : BitVec 2) (c d : Word) :
    decodeGroup (blockB 0 (seg.setWidth 4)) c d = .ps seg d := by
  rw [decodeGroup_ps (groupType_blockB 0 _), nameSegment_blockB]

theorem decodeGroup_blockB_rt (seg : BitVec 4) (c d : Word) : decodeGroup (blockB 4 seg) c d = .rt seg c d := by
  rw [decodeGroup_rt (groupType_blockB 4 _), textSegment_blockB]

theorem decodeGroup_blockB_ign {gt : BitVec 5} (h₀ : gt ≠ 0) (h₄ : gt ≠ 4) (seg : BitVec 4) (c d : Word) :
    decodeGroup (blockB gt seg) c d = .ign gt := by
  have htype := groupType_blockB gt seg
  rw [decodeGroup_ign (by rwa [htype]) (by rwa [htype]), htype]

theorem decodeEncoded_blocks {b c d : Word} {g : Group} (h : decodeGroup b c d = g) :
    decodeEncoded (.blocks b c d) = .ok g.toInstr := by
  rw [decodeEncoded, h]

/-- Settles O1: the code byte or the port selects the operand decoder, which reads the operand bytes back; a block B gives its
group back. -/
theorem decodeInvertsEncode : Obligations.DecodeInvertsEncode := by
  intro i hwf
  cases i with
  | shRefresh bus => exact congrArg (fun o => operandsOr (o.map .shRefresh)) (decodeBus_encodeBus bus)
  | shCommit lo hi ack =>
    obtain ⟨hlo, hhi⟩ : lo ≤ 0x0F ∧ hi ≤ 0x0F := by simpa [Instr.wf] using hwf
    exact congrArg operandsOr (decodeCommit_bytes hlo hhi ack)
  | shGet reg => exact congrArg operandsOr (decodeGet_byte (of_decide_eq_true hwf))
  | shSet reg val =>
    obtain ⟨hreg, hval⟩ : reg ≤ 0x0F ∧ val ≤ 0xFFFF := by simpa [Instr.wf] using hwf
    exact congrArg operandsOr (decodeSet_bytes hreg hval)
  | rdsProcess bus => exact congrArg (fun o => operandsOr (o.map .rdsProcess)) (decodeBus_encodeBus bus)
  | rdsReset cause => cases cause <;> rfl
  | rdsName => rfl
  | rdsText => rfl
  | rotGet => rfl
  | rotSet v => exact congrArg operandsOr (decodeRotSet_bytes v)
  | rotEdge now b => exact congrArg operandsOr (decodeEdge_bytes now b)
  | rdsPs seg d => exact decodeEncoded_blocks (decodeGroup_blockB_ps seg 0 d)
  | rdsRt seg c d => exact decodeEncoded_blocks (decodeGroup_blockB_rt seg c d)
  | rdsIgn gt =>
    obtain ⟨h₀, h₄⟩ : gt ≠ 0 ∧ gt ≠ 4 := by simpa [Instr.wf] using hwf
    exact decodeEncoded_blocks (decodeGroup_blockB_ign h₀ h₄ 0 0 0)

/-! ### Codes that select nothing -/

theorem decode_badCommand {c : Byte} (h : 9 < c.toNat) (ops : List Byte) :
    decode ⟨.command, c :: ops⟩ = .error .badCommand := by
  simp only [decode, decodeCommand]
  split
  case h_11 => rfl
  all_goals omega

/-- Settles O4: the seven requests decode by evaluation, and a code above 9 is in no row of the command table. -/
theorem commandCodesDecode : Obligations.CommandCodesDecode := by
  refine ⟨rfl, rfl, rfl, rfl, rfl, rfl, rfl, fun c ops rest s hc => ?_⟩
  have hdecode := decode_badCommand hc ops
  exact ⟨hdecode, fun hin => by simp [Machine.step, hin, hdecode, Machine.rejection]⟩

/-! ### Bits that do not matter -/

theorem groupType_congr {b b' : Word} (h : b >>> 11 = b' >>> 11) : groupType b = groupType b' := by
  rw [groupType_eq_iff, h, groupType_toNat]

theorem nameSegment_congr {b b' : Word} (h : b &&& 0x3 = b' &&& 0x3) : b.extractLsb' 0 2 = b'.extractLsb' 0 2 :=
  BitVec.eq_of_toNat_eq (by rw [nameSegment_toNat, nameSegment_toNat, h])

theorem textSegment_congr {b b' : Word} (h : b &&& 0xF = b' &&& 0xF) : b.extractLsb' 0 4 = b'.extractLsb' 0 4 :=
  BitVec.eq_of_toNat_eq (by rw [textSegment_toNat, textSegment_toNat, h])

/-- Settles O3: the shifted word fixes the group type, the group type the row, and the mask of the row its segment. -/
theorem ignoredBitsDoNotMatter : Obligations.IgnoredBitsDoNotMatter := by
  intro b b' c c' d d' hshift
  have htype : groupType b' = groupType b := (groupType_congr hshift).symm
  have type_zero : groupType b = 0 ↔ b >>> 11 = 0 := by rw [groupType_eq_iff, ← BitVec.toNat_inj]; rfl
  have type_four : groupType b = 4 ↔ b >>> 11 = 4 := by rw [groupType_eq_iff, ← BitVec.toNat_inj]; rfl
  refine ⟨fun h₀ hseg => ?name, fun h₄ hseg => ?text, fun h₀ h₄ => ?ignored⟩
  case name =>
    have h := type_zero.mpr h₀
    rw [decodeGroup_ps h, decodeGroup_ps (htype.trans h), nameSegment_congr hseg]
  case text =>
    have h := type_four.mpr h₄
    rw [decodeGroup_rt h, decodeGroup_rt (htype.trans h), textSegment_congr hseg]
  case ignored =>
    have h₀' := mt type_zero.mp h₀
    have h₄' := mt type_four.mp h₄
    rw [decodeGroup_ign h₀' h₄', decodeGroup_ign (htype ▸ h₀') (htype ▸ h₄'), htype]

end Sys2Proof

/-! What each operation does, said once: its effect on the cells, its output, and its refusal. Every proof about single operations
starts from `exec_eq_next_iff`. -/

namespace Sys2Proof.Machine

/-! ### The parts of a tick -/

/-- The state after a read that is not refused (R110, R111). -/
def refreshed (bus : BusAnswer) (s : State) : State :=
  match bus with
  | .fail => s
  | .ok w => s.setSh (burstWords w)

/-- The events of a read (R226). -/
def readEvents : BusAnswer → List Event
  | .fail => [.transportReadFail]
  | .ok _ => []

theorem refreshShadow_of_wf {bus : BusAnswer} (h : bus.wf = true) (s : State) :
    refreshShadow bus s = .ok (refreshed bus s, readEvents bus) := by
  cases bus with
  | fail => rfl
  | ok w => exact refreshShadow_ok (eq_of_beq h) s

theorem refreshShadow_of_not_wf {bus : BusAnswer} (h : ¬bus.wf = true) (s : State) :
    refreshShadow bus s = .error .badBurstLength := by
  cases bus with
  | fail => exact absurd rfl h
  | ok w => exact refreshShadow_bad (fun hlen => h (beq_of_eq hlen)) s

/-- What a group operation leaves, its output aside (R156 to R162). -/
def afterGroup (g : Group) (s : State) : State :=
  match g with
  | .ps seg d => groupName seg d s
  | .rt seg c d => groupText seg c d s
  | .ign _ => s

/-- The events of a group operation (R226). -/
def groupEvents : Group → List Event
  | .ps _ d => droppedEvents (psChars d)
  | .rt _ c d => droppedEvents (rtChars c d)
  | .ign gt => [.groupIgnored gt]

theorem runGroup_eq (g : Group) (s : State) :
    runGroup g s = .next ((afterGroup g s).setOut { events := groupEvents g }) := by
  cases g <;> rfl

theorem exec_toInstr (g : Group) (s : State) : exec g.toInstr s = runGroup g s := by
  cases g <;> rfl

@[simp] theorem afterGroup_sh (g : Group) (s : State) : (afterGroup g s).sh = s.sh := by cases g <;> rfl
@[simp] theorem afterGroup_cfg (g : Group) (s : State) : (afterGroup g s).cfg = s.cfg := by cases g <;> rfl
@[simp] theorem afterGroup_inputs (g : Group) (s : State) : (afterGroup g s).inputs = s.inputs := by cases g <;> rfl
@[simp] theorem afterGroup_rotUnit (g : Group) (s : State) : (afterGroup g s).rotUnit = s.rotUnit := by cases g <;> rfl

/-- Whether a tick with refreshed state `u` comes to its group: not ended at a failed read, and the flag is set (R152, R153). -/
def tickRuns (bus : BusAnswer) (u : State) : Bool := !endsTick u.cfg bus && dataReady u

/-- What a tick makes of the refreshed state `u`, its output aside (R152 to R155). -/
def afterTick (bus : BusAnswer) (u : State) : State := if tickRuns bus u then afterGroup (readGroup u) u else u

/-- The events of a tick beside those of its read. -/
def tickEvents (bus : BusAnswer) (u : State) : List Event := if tickRuns bus u then groupEvents (readGroup u) else []

theorem afterTick_of_runs {bus : BusAnswer} {u : State} (h : tickRuns bus u = true) :
    afterTick bus u = afterGroup (readGroup u) u := if_pos h

theorem afterTick_of_not_runs {bus : BusAnswer} {u : State} (h : ¬tickRuns bus u = true) : afterTick bus u = u := if_neg h

@[simp] theorem afterTick_sh (bus : BusAnswer) (u : State) : (afterTick bus u).sh = u.sh := by
  unfold afterTick; split <;> simp
@[simp] theorem afterTick_cfg (bus : BusAnswer) (u : State) : (afterTick bus u).cfg = u.cfg := by
  unfold afterTick; split <;> simp
@[simp] theorem afterTick_inputs (bus : BusAnswer) (u : State) : (afterTick bus u).inputs = u.inputs := by
  unfold afterTick; split <;> simp
@[simp] theorem afterTick_rotUnit (bus : BusAnswer) (u : State) : (afterTick bus u).rotUnit = u.rotUnit := by
  unfold afterTick; split <;> simp

@[simp] theorem refreshed_cfg (bus : BusAnswer) (s : State) : (refreshed bus s).cfg = s.cfg := by cases bus <;> rfl
@[simp] theorem refreshed_inputs (bus : BusAnswer) (s : State) : (refreshed bus s).inputs = s.inputs := by cases bus <;> rfl
@[simp] theorem refreshed_accumulator (bus : BusAnswer) (s : State) : (refreshed bus s).accumulator = s.accumulator := by
  cases bus <;> rfl
@[simp] theorem refreshed_rotUnit (bus : BusAnswer) (s : State) : (refreshed bus s).rotUnit = s.rotUnit := by cases bus <;> rfl

/-- A tick whose read is not refused (R150 to R155). -/
theorem execRdsProcess_of_wf {bus : BusAnswer} (h : bus.wf = true) (s : State) :
    execRdsProcess bus s = .next ((afterTick bus (refreshed bus s)).setOut
      { events := readEvents bus ++ tickEvents bus (refreshed bus s) }) := by
  simp only [execRdsProcess, refreshShadow_of_wf h, decodeTick, runGroup_eq, afterTick, tickEvents, tickRuns]
  generalize refreshed bus s = u
  by_cases hends : endsTick u.cfg bus = true
  · simp [hends, finish]
  · by_cases hready : dataReady u = true <;> simp [hends, hready, finish, afterEvents]

/-- The handler's effect and its output apart (R190 to R194). -/
theorem takeEdge_setOut (now : Nat) (b : Bool) (s : State) :
    (takeEdge now b s).setOut { events := if discarded now s.rotT then [.edgeDiscarded] else [] } = takeEdge now b s := by
  unfold takeEdge
  split <;> rfl

/-! ### Every operation -/

theorem setIfInBounds_of_lt {n i : Nat} (h : i < n) (v : Vector Word n) (x : Word) : v.setIfInBounds i x = v.set i x := by
  ext j hj
  simp [Vector.getElem_setIfInBounds, Vector.getElem_set]

/-- The cells an operation leaves (the output field is `output`'s). -/
def effect : Instr → State → State
  | .shRefresh bus, s => refreshed bus s
  | .shCommit _ _ _, s => s
  | .shGet _, s => s
  | .shSet reg val, s => s.setSh (s.sh.setIfInBounds reg (BitVec.ofNat 16 val))
  | .rdsProcess bus, s => afterTick bus (refreshed bus s)
  | .rdsReset cause, s => blankAccumulator cause s
  | .rdsName, s => s
  | .rdsText, s => s
  | .rotGet, s => s
  | .rotSet v, s => s.setRotVal v
  | .rotEdge now b, s => takeEdge now b s
  | .rdsPs seg d, s => groupName seg d s
  | .rdsRt seg c d, s => groupText seg c d s
  | .rdsIgn _, s => s

/-- The output of an operation. -/
def output : Instr → State → Output
  | .shRefresh bus, _ => { events := readEvents bus }
  | .shCommit _ _ ack, s =>
    { busWrite := some (commitBytes s.sh), events := if ack = .fail then [.transportWriteFail] else [] }
  | .shGet reg, s => { result := s.sh[reg]?.map .word }
  | .shSet _ _, _ => {}
  | .rdsProcess bus, s => { events := readEvents bus ++ tickEvents bus (refreshed bus s) }
  | .rdsReset _, _ => {}
  | .rdsName, s => { result := some (.str s.psStr) }
  | .rdsText, s => { result := some (.str s.rtStr) }
  | .rotGet, s => { result := some (.int s.rotVal) }
  | .rotSet _, _ => {}
  | .rotEdge now _, s => { events := if discarded now s.rotT then [.edgeDiscarded] else [] }
  | .rdsPs _ d, _ => { events := droppedEvents (psChars d) }
  | .rdsRt _ c d, _ => { events := droppedEvents (rtChars c d) }
  | .rdsIgn gt, _ => { events := [.groupIgnored gt] }

/-- The refusal of an operation whose operands are outside the contract (R231). -/
def refusal? (c : Config) : Instr → Option Refusal
  | .shRefresh bus => if bus.wf then none else some .badBurstLength
  | .shCommit lo hi _ => if lo = 0x02 ∧ hi = 0x07 then none else some .badCommitRange
  | .shGet reg => if reg ≤ 0x0F then none else some .badRegister
  | .shSet reg val =>
    if reg ≤ 0x0F then if val ≤ 0xFFFF then none else some .badWord else some .badRegister
  | .rdsProcess bus => if bus.wf then none else some .badBurstLength
  | .rotSet v => if inRotRange c v then none else some .rotSetRange
  | _ => none

/-- The whole answer of an operation: its effect with its output, or its refusal (R225, R231). -/
theorem exec_eq (i : Instr) (s : State) :
    exec i s = (refusal? s.cfg i).elim (.next ((effect i s).setOut (output i s))) .refused := by
  cases i with
  | shRefresh bus =>
    by_cases h : bus.wf = true
    · simp [exec, execShRefresh, refreshShadow_of_wf h, finish, refusal?, h, effect, output]
    · simp [exec, execShRefresh, refreshShadow_of_not_wf h, refusal?, h]
  | shCommit lo hi ack =>
    by_cases h : lo = 0x02 ∧ hi = 0x07
    · cases ack <;> simp [exec, execShCommit, finish, refusal?, h, effect, output]
    · simp [exec, execShCommit, refusal?, h]
  | shGet reg =>
    by_cases h : reg < 16
    · simp [exec, execShGet, regIndex?_of_lt h, finish, refusal?, Nat.le_of_lt_succ h, effect, output, h]
    · simp [exec, execShGet, regIndex?_of_ge (Nat.le_of_not_lt h), refusal?, show ¬reg ≤ 15 by omega]
  | shSet reg val =>
    by_cases h : reg < 16
    · by_cases hv : val ≤ 0xFFFF
      · simp [exec, execShSet, regIndex?_of_lt h, finish, refusal?, Nat.le_of_lt_succ h, hv, effect, output, setIfInBounds_of_lt h]
      · simp [exec, execShSet, regIndex?_of_lt h, refusal?, Nat.le_of_lt_succ h, hv]
    · simp [exec, execShSet, regIndex?_of_ge (Nat.le_of_not_lt h), refusal?, show ¬reg ≤ 15 by omega]
  | rdsProcess bus =>
    by_cases h : bus.wf = true
    · simp [exec, execRdsProcess_of_wf h, refusal?, h, effect, output]
    · simp [exec, execRdsProcess, refreshShadow_of_not_wf h, refusal?, h]
  | rotSet v =>
    by_cases h : inRotRange s.cfg v = true <;> simp [exec, execRotSet, finish, refusal?, h, effect, output]
  | rotEdge now b => exact congrArg Host.Outcome.next (takeEdge_setOut now b s).symm
  | rdsReset _ => rfl
  | rdsName => rfl
  | rdsText => rfl
  | rotGet => rfl
  | rdsPs _ _ => rfl
  | rdsRt _ _ _ => rfl
  | rdsIgn _ => rfl

theorem admitted_iff (c : Config) (i : Instr) : admitted c i = true ↔ refusal? c i = none := by
  cases i <;> simp [admitted, refusal?, inRotRange]
  case shSet reg val => split <;> simp [*]

/-- The one inversion lemma of `exec`. -/
theorem exec_eq_next_iff {i : Instr} {s t : State} :
    exec i s = .next t ↔ admitted s.cfg i = true ∧ t = (effect i s).setOut (output i s) := by
  rw [exec_eq, admitted_iff]
  cases refusal? s.cfg i with
  | none => simp [eq_comm]
  | some r => simp

theorem exec_of_admitted {i : Instr} {s : State} (h : admitted s.cfg i = true) :
    exec i s = .next ((effect i s).setOut (output i s)) :=
  exec_eq_next_iff.mpr ⟨h, rfl⟩

theorem exec_of_refusal? {i : Instr} {s : State} {r : Refusal} (h : refusal? s.cfg i = some r) : exec i s = .refused r := by
  rw [exec_eq, h]
  rfl

@[simp] theorem effect_cfg (i : Instr) (s : State) : (effect i s).cfg = s.cfg := by
  cases i with
  | shRefresh bus => simp [effect]
  | rdsProcess bus => simp [effect]
  | rotEdge now b => rcases takeEdge_cases now b s with ⟨-, h⟩ | ⟨-, h⟩ <;> simp [effect, h]
  | _ => rfl

@[simp] theorem effect_inputs (i : Instr) (s : State) : (effect i s).inputs = s.inputs := by
  cases i with
  | shRefresh bus => simp [effect]
  | rdsProcess bus => simp [effect]
  | rotEdge now b => rcases takeEdge_cases now b s with ⟨-, h⟩ | ⟨-, h⟩ <;> simp [effect, h]
  | _ => rfl

end Sys2Proof.Machine

/-! Proofs about 10_state.md section 6: the invariant of the block (R30, R33, R38). -/

namespace Sys2Proof.Machine

/-! ### A buffer with its string -/

/-- `PS` with `PS_STR`. -/
def State.name (s : State) : Vector Byte 8 × Str := (s.ps, s.psStr)

/-- `RT` with `RT_STR`. -/
def State.text (s : State) : Vector Byte 64 × Str := (s.rt, s.rtStr)

section
variable {n : Nat} {f : Vector Byte n → Str}

/-- Writes a run of characters into a buffer; its string becomes `f` of the buffer if one was written (R158, R161). -/
def writeRun (f : Vector Byte n → Str) (k : Nat) (cs : List Byte) (p : Vector Byte n × Str) : Vector Byte n × Str :=
  (putChars p.1 k cs, if wrote cs then f (putChars p.1 k cs) else p.2)

theorem writeRun_of_wrote {cs : List Byte} (h : wrote cs = true) (k : Nat) (p : Vector Byte n × Str) :
    writeRun f k cs p = (putChars p.1 k cs, f (putChars p.1 k cs)) := by
  rw [writeRun, if_pos h]

theorem writeRun_of_not_wrote {cs : List Byte} (h : ¬wrote cs = true) (k : Nat) (p : Vector Byte n × Str) :
    writeRun f k cs p = p := by
  rw [writeRun, if_neg h, putChars_of_not_wrote cs p.1 k (Bool.eq_false_of_not_eq_true h)]

/-- What any operation `i` can make of a buffer with its string: nothing, a reset's blank, or a run of characters with the
string joined anew (R33). -/
def Evolves (f : Vector Byte n → Str) (placeholder : Cause → Str) (i : Instr) (p p' : Vector Byte n × Str) : Prop :=
  p' = p ∨ (∃ cause, i = .rdsReset cause ∧ p' = (Vector.replicate n 0x20, placeholder cause)) ∨
    ∃ k cs, p' = (putChars p.1 k cs, f (putChars p.1 k cs))

theorem writeRun_evolves (placeholder : Cause → Str) (i : Instr) (k : Nat) (cs : List Byte) (p : Vector Byte n × Str) :
    Evolves f placeholder i p (writeRun f k cs p) := by
  by_cases h : wrote cs = true
  · exact .inr (.inr ⟨k, cs, writeRun_of_wrote h k p⟩)
  · exact .inl (writeRun_of_not_wrote h k p)

theorem Evolves.allPrintable {placeholder : Cause → Str} {i : Instr} {p p' : Vector Byte n × Str}
    (h : Evolves f placeholder i p p') (hp : AllPrintable p.1) : AllPrintable p'.1 := by
  rcases h with rfl | ⟨cause, -, rfl⟩ | ⟨k, cs, rfl⟩
  · exact hp
  · exact blank_allPrintable n
  · exact putChars_allPrintable cs p.1 k hp

/-- R33 without its ghosts, for one buffer: the string is `f` of the buffer, or the buffer is blank beside a reset's string. -/
def Derived (f : Vector Byte n → Str) (placed : Str → Prop) (p : Vector Byte n × Str) : Prop :=
  p.2 = f p.1 ∨ (p.1 = Vector.replicate n 0x20 ∧ placed p.2)

theorem Evolves.derived {placeholder : Cause → Str} {placed : Str → Prop} {i : Instr} {p p' : Vector Byte n × Str}
    (h : Evolves f placeholder i p p') (hplaced : ∀ cause, placed (placeholder cause)) (hp : Derived f placed p) :
    Derived f placed p' := by
  rcases h with rfl | ⟨cause, -, rfl⟩ | ⟨k, cs, rfl⟩
  · exact hp
  · exact .inr ⟨rfl, hplaced cause⟩
  · exact .inl rfl

end

/-! ### What each operation makes of the buffers -/

/-- Where and what a group writes into the name buffer (R156). -/
def nameRun : Group → Nat × List Byte
  | .ps seg d => (psIndex seg, psChars d)
  | .rt _ _ _ => (0, [])
  | .ign _ => (0, [])

/-- Where and what a group writes into the text buffer (R159). -/
def textRun : Group → Nat × List Byte
  | .ps _ _ => (0, [])
  | .rt seg c d => (rtIndex seg, rtChars c d)
  | .ign _ => (0, [])

theorem afterGroup_name (g : Group) (s : State) :
    (afterGroup g s).name = writeRun join (nameRun g).1 (nameRun g).2 s.name := by
  cases g <;> rfl

theorem afterGroup_text (g : Group) (s : State) :
    (afterGroup g s).text = writeRun (fun buf => strip (join buf)) (textRun g).1 (textRun g).2 s.text := by
  cases g <;> rfl

theorem refreshed_name (bus : BusAnswer) (s : State) : (refreshed bus s).name = s.name := by cases bus <;> rfl

theorem refreshed_text (bus : BusAnswer) (s : State) : (refreshed bus s).text = s.text := by cases bus <;> rfl

/-- An edge touches the rotary cells and the output alone (R242). -/
theorem takeEdge_rdsUnit (now : Nat) (b : Bool) (s : State) : (takeEdge now b s).rdsUnit = s.rdsUnit := by
  rcases takeEdge_cases now b s with ⟨-, h⟩ | ⟨-, h⟩ <;> rw [h] <;> rfl

theorem State.name_text_of_rdsUnit {s t : State} (h : t.rdsUnit = s.rdsUnit) : t.name = s.name ∧ t.text = s.text := by
  simp only [State.rdsUnit, Prod.mk.injEq] at h
  obtain ⟨-, hps, hrt, hpsStr, hrtStr⟩ := h
  simp [State.name, State.text, *]

/-- Every operation evolves the name buffer. -/
theorem effect_name (i : Instr) (s : State) : Evolves join (ph s.cfg · .name) i s.name (effect i s).name := by
  cases i with
  | rdsProcess bus =>
    rw [← refreshed_name bus s, effect, afterTick]
    split
    · rw [afterGroup_name]
      exact writeRun_evolves _ _ _ _ _
    · exact .inl rfl
  | rdsReset cause => exact .inr (.inl ⟨cause, rfl, rfl⟩)
  | rdsPs seg d => exact writeRun_evolves _ _ (psIndex seg) (psChars d) s.name
  | shRefresh bus => exact .inl (refreshed_name bus s)
  | rotEdge now b => exact .inl (State.name_text_of_rdsUnit (takeEdge_rdsUnit now b s)).1
  | _ => exact .inl rfl

/-- Every operation evolves the text buffer. -/
theorem effect_text (i : Instr) (s : State) :
    Evolves (fun buf => strip (join buf)) (ph s.cfg · .text) i s.text (effect i s).text := by
  cases i with
  | rdsProcess bus =>
    rw [← refreshed_text bus s, effect, afterTick]
    split
    · rw [afterGroup_text]
      exact writeRun_evolves _ _ _ _ _
    · exact .inl rfl
  | rdsReset cause => exact .inr (.inl ⟨cause, rfl, rfl⟩)
  | rdsRt seg c d => exact writeRun_evolves _ _ (rtIndex seg) (rtChars c d) s.text
  | shRefresh bus => exact .inl (refreshed_text bus s)
  | rotEdge now b => exact .inl (State.name_text_of_rdsUnit (takeEdge_rdsUnit now b s)).2
  | _ => exact .inl rfl

theorem placed_ph (c : Config) (line : Line) (cause : Cause) : Placed c line (ph c cause line) := by
  cases cause
  · exact .inr (.inl rfl)
  · exact .inr (.inr rfl)

/-! ### What each operation makes of the rotary cells -/

theorem effect_rotUnit {i : Instr} (h : isRotary i = false) (s : State) : (effect i s).rotUnit = s.rotUnit := by
  cases i with
  | rotGet => cases h
  | rotSet v => cases h
  | rotEdge now b => cases h
  | shRefresh bus => simp [effect]
  | rdsProcess bus => simp [effect]
  | _ => rfl

theorem State.rotVal_of_rotUnit {s t : State} (h : t.rotUnit = s.rotUnit) : t.rotVal = s.rotVal :=
  congrArg Prod.fst h

theorem State.rotT_of_rotUnit {s t : State} (h : t.rotUnit = s.rotUnit) : t.rotT = s.rotT :=
  congrArg (fun u => u.2.1) h

/-- `ROT_SET` is held to the range and an accepted edge clamps to it (R38). -/
theorem effect_rotaryInv {i : Instr} {s : State} (hwf : s.cfg.WF) (hrot : RotaryInv s) (hadm : admitted s.cfg i = true) :
    RotaryInv (effect i s) := by
  cases hi : isRotary i with
  | false => rwa [RotaryInv, effect_cfg, State.rotVal_of_rotUnit (effect_rotUnit hi s)]
  | true =>
    cases i with
    | rotGet => exact hrot
    | rotSet v => simpa [admitted, RotaryInv, effect] using hadm
    | rotEdge now b =>
      rcases takeEdge_cases now b s with ⟨-, h⟩ | ⟨-, h⟩
      · rwa [effect, h]
      · rw [effect, h]
        exact stepValue_mem hwf.1 s.rotVal b
    | _ => cases hi

/-! ### The invariant -/

/-- The invariant, buffer by buffer. -/
theorem blockInv_iff (s : State) :
    BlockInv s ↔ s.cfg.WF ∧ (AllPrintable s.name.1 ∧ AllPrintable s.text.1) ∧ RotaryInv s ∧
      Derived join (Placed s.cfg .name) s.name ∧ Derived (fun buf => strip (join buf)) (Placed s.cfg .text) s.text :=
  Iff.rfl

theorem exec_keeps_blockInv {i : Instr} {s t : State} (hinv : BlockInv s) (h : exec i s = .next t) : BlockInv t := by
  obtain ⟨hadm, rfl⟩ := exec_eq_next_iff.mp h
  obtain ⟨hwf, ⟨hname, htext⟩, hrot, hnameStr, htextStr⟩ := (blockInv_iff s).mp hinv
  change BlockInv (effect i s)
  rw [blockInv_iff, effect_cfg]
  exact ⟨hwf, ⟨(effect_name i s).allPrintable hname, (effect_text i s).allPrintable htext⟩, effect_rotaryInv hwf hrot hadm,
    (effect_name i s).derived (placed_ph s.cfg .name) hnameStr, (effect_text i s).derived (placed_ph s.cfg .text) htextStr⟩

/-- Settles O44: a step is idle or one operation, and every operation evolves both buffers and keeps the value in its range. -/
theorem stepKeepsInvariant : Obligations.StepKeepsInvariant := by
  intro s t hinv hstep
  rcases step_cases s with ⟨-, h⟩ | ⟨r, rest, i, -, -, h⟩ | ⟨r, rest, e, -, -, h⟩ <;> rw [h] at hstep
  · cases hstep
    exact hinv
  · exact exec_keeps_blockInv (s := s.setInputs rest) hinv hstep
  · cases hstep

end Sys2Proof.Machine

/-! Proofs about one step and one operation at a time (10_state.md sections 3 and 10, 60_exceptions.md): what a step runs, which
operands are refused, the frames, the two units. -/

namespace Sys2Proof.Machine

/-! ### One step -/

theorem step_of_decode_ok {s : State} {r : Request} {rest : List Request} {i : Instr} (hin : s.inputs = r :: rest)
    (h : decode r = .ok i) : step s = exec i (s.setInputs rest) := by
  simp [step, hin, h]

theorem step_of_decode_error {s : State} {r : Request} {rest : List Request} {e : Reject} (hin : s.inputs = r :: rest)
    (h : decode r = .error e) : step s = .refused (rejection e) := by
  simp [step, hin, h]

theorem step_idle {s : State} (hin : s.inputs = []) : step s = .next s := by
  simp [step, hin]

/-- Settles O5: the four clauses are the branches of `step`. -/
theorem stepRunsDecodedOperation : Obligations.StepRunsDecodedOperation := by
  intro s r rest
  exact ⟨fun i hin h => step_of_decode_ok hin h, fun hin h => step_of_decode_error hin h,
    fun hin h => step_of_decode_error hin h, step_idle⟩

theorem exec_keeps_cfg_inputs {i : Instr} {s t : State} (h : exec i s = .next t) : t.cfg = s.cfg ∧ t.inputs = s.inputs := by
  obtain ⟨-, rfl⟩ := exec_eq_next_iff.mp h
  exact ⟨effect_cfg i s, effect_inputs i s⟩

/-- Settles O7: no operation writes the parameters or the tape, so the tape is the one `step` handed to it. -/
theorem stepKeepsParametersAndConsumesOneRequest : Obligations.StepKeepsParametersAndConsumesOneRequest := by
  intro s t hstep
  rcases step_cases s with ⟨hin, h⟩ | ⟨r, rest, i, hin, -, h⟩ | ⟨r, rest, e, -, -, h⟩ <;> rw [h] at hstep
  · cases hstep
    exact ⟨rfl, by rw [hin]; rfl⟩
  · rw [hin]
    exact exec_keeps_cfg_inputs hstep
  · cases hstep

/-! ### A placed group -/

/-- The shadow `placeGroup` leaves (log 4). -/
def placedShadow (s : State) (b c d : Word) : Vector Word 16 :=
  (((s.sh.set s.cfg.regRdsd d).set s.cfg.regRdsc c).set s.cfg.regRdsb b).set s.cfg.regStatus 0x8000

theorem placeGroup_setInputs (s : State) (b c d : Word) :
    (s.placeGroup b c d).setInputs s.inputs = s.setSh (placedShadow s b c d) := rfl

theorem step_placeGroup (s : State) (b c d : Word) :
    step (s.placeGroup b c d) =
      exec (.rdsProcess (.ok (burstBytes (placedShadow s b c d)))) (s.setSh (placedShadow s b c d)) := by
  have hdecode (w : List Byte) : decode ⟨.command, 0x4 :: encodeBus (.ok w)⟩ = .ok (.rdsProcess (.ok w)) := rfl
  exact step_of_decode_ok rfl (hdecode _)

theorem refreshed_burstBytes (s : State) (sh : Vector Word 16) :
    refreshed (.ok (burstBytes sh)) (s.setSh sh) = s.setSh sh := by
  rw [refreshed, burstWords_burstBytes]
  rfl

/-- With distinct registers the placed shadow is ready and holds the group (R83, R154). -/
theorem placedShadow_group {s : State} (b c d : Word)
    (h : [s.cfg.regStatus, s.cfg.regRdsb, s.cfg.regRdsc, s.cfg.regRdsd].Nodup) :
    dataReady (s.setSh (placedShadow s b c d)) = true ∧ readGroup (s.setSh (placedShadow s b c d)) = decodeGroup b c d := by
  simp only [List.nodup_cons, List.mem_cons, List.not_mem_nil, or_false, not_or, Fin.ext_iff, List.nodup_nil,
    not_false_eq_true, and_true] at h
  obtain ⟨⟨hsb, hsc, hsd⟩, ⟨hbc, hbd⟩, hcd⟩ := h
  simp [dataReady, readGroup, placedShadow, Vector.getElem_set_ne, hsb, hsc, hsd, hbc, hbd, hcd]

/-- Settles O6: the tick's burst brings back the placed shadow, which is ready and holds the group, so the tick is the group with
no event before it. -/
theorem placedGroupRunsInsideTick : Obligations.PlacedGroupRunsInsideTick := by
  intro s b c d hnodup
  obtain ⟨hready, hgroup⟩ := placedShadow_group b c d hnodup
  rw [step_placeGroup, placeGroup_setInputs, exec_toInstr, runGroup_eq]
  refine ⟨_, ?_, rfl⟩
  have hruns : tickRuns (.ok (burstBytes (placedShadow s b c d))) (s.setSh (placedShadow s b c d)) = true := by
    simp [tickRuns, endsTick, hready]
  rw [exec, execRdsProcess_of_wf rfl, refreshed_burstBytes, afterTick_of_runs hruns, tickEvents, if_pos hruns, hgroup]
  rfl

/-! ### Which operands are refused -/

/-- Settles O8: an operation answers its effect, or a refusal if its operands are not admitted. -/
theorem completesExactlyWhenAdmitted : Obligations.CompletesExactlyWhenAdmitted := by
  intro i s
  exact ⟨fun h => ⟨_, exec_of_admitted h⟩, fun ⟨t, h⟩ => (exec_eq_next_iff.mp h).1⟩

/-- Settles O9: each condition selects a row of `refusal?`. -/
theorem outOfContractOperandsRefusedByName : Obligations.OutOfContractOperandsRefusedByName := by
  intro s reg val lo hi ack w v
  refine ⟨fun hreg => ?register, fun hreg hval => ?word, fun hrange => ?commit, fun hlen => ?burst, fun hv => ?rotSet⟩
  case register =>
    have hreg' : ¬reg ≤ 15 := Nat.not_le.mpr hreg
    exact ⟨exec_of_refusal? (if_neg hreg'), exec_of_refusal? (if_neg hreg')⟩
  case word => exact exec_of_refusal? ((if_pos hreg).trans (if_neg (Nat.not_le.mpr hval)))
  case commit => exact exec_of_refusal? (if_neg (by omega))
  case burst =>
    have hwf : ¬(BusAnswer.ok w).wf = true := fun h => hlen (eq_of_beq h)
    exact ⟨exec_of_refusal? (if_neg hwf), exec_of_refusal? (if_neg hwf)⟩
  case rotSet =>
    have hout : ¬inRotRange s.cfg v = true := by
      simp only [inRotRange, Bool.and_eq_true, decide_eq_true_eq]
      omega
    exact exec_of_refusal? (if_neg hout)

/-! ### Frames -/

/-- Settles O50: each effect names the cells it writes. -/
theorem operationsKeepTheirFrames : Obligations.OperationsKeepTheirFrames := by
  intro i s t h
  obtain ⟨hcfg, hinputs⟩ := exec_keeps_cfg_inputs h
  obtain ⟨hadm, rfl⟩ := exec_eq_next_iff.mp h
  refine ⟨hcfg, hinputs, ?_⟩
  cases i with
  | shRefresh bus => exact ⟨refreshed_accumulator bus s, refreshed_rotUnit bus s⟩
  | shSet reg val =>
    refine ⟨rfl, rfl, fun r hr => ?_⟩
    exact Vector.getElem_setIfInBounds_ne r.isLt (Ne.symm hr)
  | rdsProcess bus => exact effect_rotUnit (i := .rdsProcess bus) rfl s
  | rdsReset cause => exact ⟨rfl, rfl⟩
  | rotSet v => exact ⟨rfl, rfl, rfl⟩
  | rotEdge now b => exact takeEdge_rdsUnit now b s
  | rdsPs seg d => exact ⟨rfl, rfl, rfl, rfl⟩
  | rdsRt seg c d => exact ⟨rfl, rfl, rfl, rfl⟩
  | shCommit _ _ _ => rfl
  | shGet _ => rfl
  | rdsName => rfl
  | rdsText => rfl
  | rotGet => rfl
  | rdsIgn _ => rfl

/-! ### The two ports -/

theorem operandsOr_eq_ok {o : Option Instr} {i : Instr} (h : operandsOr o = .ok i) : o = some i := by
  cases o with
  | none => cases h
  | some j => cases h; rfl

/-- The interrupt port carries edges alone (R93). -/
theorem decode_interrupt {bytes : List Byte} {i : Instr} (h : decode ⟨.interrupt, bytes⟩ = .ok i) :
    ∃ now b, i = .rotEdge now b := by
  have hops : decodeEdge bytes = some i := operandsOr_eq_ok h
  unfold decodeEdge at hops
  split at hops
  · obtain ⟨lvl, -, rfl⟩ := Option.map_eq_some_iff.mp hops
    exact ⟨_, lvl, rfl⟩
  · cases hops

theorem isEdge_of_map {α : Type} {o : Option α} {mk : α → Instr} {i : Instr} (hmk : ∀ a, isEdge (mk a) = false)
    (h : o.map mk = some i) : isEdge i = false := by
  obtain ⟨a, -, rfl⟩ := Option.map_eq_some_iff.mp h
  exact hmk a

theorem decodeCommit_isEdge {ops : List Byte} {i : Instr} (h : decodeCommit ops = some i) : isEdge i = false := by
  unfold decodeCommit at h
  split at h
  · exact isEdge_of_map (fun _ => rfl) h
  · cases h

theorem decodeGet_isEdge {ops : List Byte} {i : Instr} (h : decodeGet ops = some i) : isEdge i = false := by
  unfold decodeGet at h
  split at h <;> cases h
  rfl

theorem decodeSet_isEdge {ops : List Byte} {i : Instr} (h : decodeSet ops = some i) : isEdge i = false := by
  unfold decodeSet at h
  split at h <;> cases h
  rfl

theorem decodeReset_isEdge {ops : List Byte} {i : Instr} (h : decodeReset ops = some i) : isEdge i = false := by
  unfold decodeReset at h
  split at h
  · exact isEdge_of_map (fun _ => rfl) h
  · cases h

theorem decodeRotSet_isEdge {ops : List Byte} {i : Instr} (h : decodeRotSet ops = some i) : isEdge i = false := by
  unfold decodeRotSet at h
  split at h
  · exact isEdge_of_map (fun _ => rfl) h
  · cases h

theorem decodePlain_eq_some {ops : List Byte} {i j : Instr} (h : decodePlain j ops = some i) : i = j := by
  cases ops <;> cases h
  rfl

/-- The command port carries no edge (R91). -/
theorem decode_command_isEdge {bytes : List Byte} {i : Instr} (h : decode ⟨.command, bytes⟩ = .ok i) : isEdge i = false := by
  simp only [decode, decodeCommand] at h
  split at h
  · cases h
  · split at h
    case h_1 | h_5 => exact isEdge_of_map (fun _ => rfl) (operandsOr_eq_ok h)
    case h_2 => exact decodeCommit_isEdge (operandsOr_eq_ok h)
    case h_3 => exact decodeGet_isEdge (operandsOr_eq_ok h)
    case h_4 => exact decodeSet_isEdge (operandsOr_eq_ok h)
    case h_6 => exact decodeReset_isEdge (operandsOr_eq_ok h)
    case h_7 | h_8 | h_9 =>
      rw [decodePlain_eq_some (operandsOr_eq_ok h)]
      rfl
    case h_10 => exact decodeRotSet_isEdge (operandsOr_eq_ok h)
    case h_11 => cases h

/-- `ROT_T` and `ROT_B` are written by edges alone (R43). -/
theorem effect_edgeRecord {i : Instr} (h : isEdge i = false) (s : State) :
    (effect i s).rotT = s.rotT ∧ (effect i s).rotB = s.rotB := by
  cases hi : isRotary i with
  | false => simpa [State.rotUnit] using congrArg Prod.snd (effect_rotUnit hi s)
  | true =>
    cases i with
    | rotEdge now b => cases h
    | rotSet v => exact ⟨rfl, rfl⟩
    | rotGet => exact ⟨rfl, rfl⟩
    | _ => cases hi

/-- Settles O51: a request on the command port decodes to no edge, one on the interrupt port to nothing else. -/
theorem contextsWriteOnlyTheirCells : Obligations.ContextsWriteOnlyTheirCells := by
  intro s t r rest hin hstep
  obtain ⟨port, bytes⟩ := r
  cases hd : decode ⟨port, bytes⟩ with
  | error e => simp [step_of_decode_error hin hd] at hstep
  | ok i =>
    rw [step_of_decode_ok hin hd] at hstep
    obtain ⟨-, rfl⟩ := exec_eq_next_iff.mp hstep
    refine ⟨?command, ?interrupt⟩
    case command =>
      rintro rfl
      exact effect_edgeRecord (decode_command_isEdge hd) _
    case interrupt =>
      rintro rfl
      obtain ⟨now, b, rfl⟩ := decode_interrupt hd
      exact ⟨takeEdge_rdsUnit now b _, rfl, rfl⟩

/-! ### The two units -/

/-- `s` with the rotary unit, the tape and the output of another state. -/
def State.withRotaryOf (s x : State) : State :=
  { s with rotVal := x.rotVal, rotT := x.rotT, rotB := x.rotB, inputs := x.inputs, out := x.out }

theorem State.eq_withRotaryOf {s s' : State} (hcfg : s'.cfg = s.cfg) (hrds : s'.rdsUnit = s.rdsUnit) :
    s' = s.withRotaryOf s' := by
  simp only [State.rdsUnit, Prod.mk.injEq] at hrds
  obtain ⟨hsh, hps, hrt, hpsStr, hrtStr⟩ := hrds
  simp only [State.withRotaryOf, ← hcfg, ← hsh, ← hps, ← hrt, ← hpsStr, ← hrtStr]

theorem afterGroup_withRotaryOf (g : Group) (s x : State) :
    (afterGroup g (s.withRotaryOf x)).rdsUnit = (afterGroup g s).rdsUnit := by
  cases g <;> rfl

theorem refreshed_withRotaryOf (bus : BusAnswer) (s x : State) :
    refreshed bus (s.withRotaryOf x) = (refreshed bus s).withRotaryOf x := by
  cases bus <;> rfl

theorem afterTick_withRotaryOf (bus : BusAnswer) (u x : State) :
    (afterTick bus (u.withRotaryOf x)).rdsUnit = (afterTick bus u).rdsUnit := by
  have hruns : tickRuns bus (u.withRotaryOf x) = tickRuns bus u := rfl
  rw [afterTick, afterTick, hruns]
  split
  · exact afterGroup_withRotaryOf (readGroup u) u x
  · rfl

/-- What an operation makes of the RDS unit does not depend on the rotary unit (R44). -/
theorem effect_rdsUnit_congr (i : Instr) {s s' : State} (hcfg : s'.cfg = s.cfg) (hrds : s'.rdsUnit = s.rdsUnit) :
    (effect i s').rdsUnit = (effect i s).rdsUnit := by
  rw [State.eq_withRotaryOf hcfg hrds]
  generalize s' = x
  cases i with
  | shRefresh bus => rw [effect, refreshed_withRotaryOf]; rfl
  | rdsProcess bus => rw [effect, refreshed_withRotaryOf, afterTick_withRotaryOf]; rfl
  | rotEdge now b => exact (takeEdge_rdsUnit now b _).trans (takeEdge_rdsUnit now b s).symm
  | _ => rfl

/-- What an operation of the RDS unit gives the outside does not depend on the rotary unit (R44). -/
theorem output_rds_congr {i : Instr} (hi : isRotary i = false) {s s' : State} (hcfg : s'.cfg = s.cfg)
    (hrds : s'.rdsUnit = s.rdsUnit) : output i s' = output i s := by
  rw [State.eq_withRotaryOf hcfg hrds]
  generalize s' = x
  cases i with
  | rotGet => cases hi
  | rotEdge now b => cases hi
  | rdsProcess bus => rw [output, refreshed_withRotaryOf]; rfl
  | _ => rfl

/-- An edge reads the parameters and the rotary unit alone (R44). -/
theorem takeEdge_rotUnit_congr (now : Nat) (b : Bool) {s s' : State} (hcfg : s'.cfg = s.cfg)
    (hrot : s'.rotUnit = s.rotUnit) : (takeEdge now b s').rotUnit = (takeEdge now b s).rotUnit := by
  simp only [takeEdge, State.rotT_of_rotUnit hrot, State.rotVal_of_rotUnit hrot, hcfg]
  split
  · exact hrot
  · rfl

theorem takeEdge_out (now : Nat) (b : Bool) (s : State) : (takeEdge now b s).out = output (.rotEdge now b) s :=
  congrArg State.out (takeEdge_setOut now b s).symm

/-- What an operation makes of the rotary unit does not depend on the RDS unit (R44). -/
theorem effect_rotUnit_congr (i : Instr) {s s' : State} (hcfg : s'.cfg = s.cfg) (hrot : s'.rotUnit = s.rotUnit) :
    (effect i s').rotUnit = (effect i s).rotUnit := by
  cases hi : isRotary i with
  | false => rw [effect_rotUnit hi, effect_rotUnit hi, hrot]
  | true =>
    cases i with
    | rotGet => exact hrot
    | rotSet v => exact congrArg (Prod.mk v) (congrArg Prod.snd hrot)
    | rotEdge now b => exact takeEdge_rotUnit_congr now b hcfg hrot
    | _ => cases hi

theorem output_rotary_congr {i : Instr} (hi : isRotary i = true) {s s' : State} (hrot : s'.rotUnit = s.rotUnit) :
    output i s' = output i s := by
  cases i with
  | rotGet => rw [output, State.rotVal_of_rotUnit hrot, output]
  | rotSet v => rfl
  | rotEdge now b => rw [output, State.rotT_of_rotUnit hrot, output]
  | _ => cases hi

/-- Settles O52: the effect on a unit and the output of its operations read that unit and the parameters alone. -/
theorem unitsDoNotInterfere : Obligations.UnitsDoNotInterfere := by
  intro i s s' t t' hcfg h h'
  obtain ⟨-, rfl⟩ := exec_eq_next_iff.mp h
  obtain ⟨-, rfl⟩ := exec_eq_next_iff.mp h'
  exact ⟨fun hrot => ⟨effect_rotUnit_congr i hcfg hrot, fun hi => output_rotary_congr hi hrot⟩,
    fun hrds => ⟨effect_rdsUnit_congr i hcfg hrds, fun hi => output_rds_congr hi hcfg hrds⟩⟩

theorem State.cells_eq_of_units {s t : State} (hrds : s.rdsUnit = t.rdsUnit) (hrot : s.rotUnit = t.rotUnit) :
    s.cells = t.cells := by
  simp only [State.rdsUnit, State.rotUnit, Prod.mk.injEq] at hrds hrot
  simp [State.cells, hrds, hrot]

/-- Settles O53: the edge leaves the RDS unit, the other operation the rotary unit, and neither reads the unit the other writes. -/
theorem edgeCommutesWithMainLoopOperations : Obligations.EdgeCommutesWithMainLoopOperations := by
  intro i now b s t hi h
  obtain ⟨hadm, rfl⟩ := exec_eq_next_iff.mp h
  have hcfg : (takeEdge now b s).cfg = s.cfg := effect_cfg (.rotEdge now b) s
  have hrds : (takeEdge now b s).rdsUnit = s.rdsUnit := takeEdge_rdsUnit now b s
  have hrot : ((effect i s).setOut (output i s)).rotUnit = s.rotUnit := effect_rotUnit hi s
  refine ⟨_, _, _, rfl, exec_of_admitted (hcfg.symm ▸ hadm), rfl, ?cells, output_rds_congr hi hcfg hrds, ?edgeOut⟩
  case cells =>
    refine State.cells_eq_of_units ?rds ?rot
    case rds => exact (effect_rdsUnit_congr i hcfg hrds).trans (takeEdge_rdsUnit now b _).symm
    case rot => exact (effect_rotUnit hi _).trans (takeEdge_rotUnit_congr now b (effect_cfg i s) hrot).symm
  case edgeOut =>
    rw [takeEdge_out, takeEdge_out]
    exact output_rotary_congr rfl hrot

/-! ### What is read -/

theorem State.units_of_cells {s t : State} (h : s.cells = t.cells) : s.rdsUnit = t.rdsUnit ∧ s.rotUnit = t.rotUnit := by
  simp only [State.cells, Cells.mk.injEq] at h
  simp [State.rdsUnit, State.rotUnit, h]

theorem State.setOut_eq_of_cells {s t : State} (hcells : s.cells = t.cells) (hcfg : s.cfg = t.cfg)
    (hinputs : s.inputs = t.inputs) (o : Output) : s.setOut o = t.setOut o := by
  simp only [State.cells, Cells.mk.injEq] at hcells
  simp [State.setOut, hcells, hcfg, hinputs]

/-- An operation reads the cells and the parameters alone, and hands the tape on. -/
theorem exec_congr (i : Instr) {s s' : State} (hcells : s'.cells = s.cells) (hcfg : s'.cfg = s.cfg)
    (hinputs : s'.inputs = s.inputs) : exec i s' = exec i s := by
  obtain ⟨hrds, hrot⟩ := State.units_of_cells hcells
  have hout : output i s' = output i s := by
    cases hi : isRotary i with
    | false => exact output_rds_congr hi hcfg hrds
    | true => exact output_rotary_congr hi hrot
  have heffect : (effect i s').cells = (effect i s).cells :=
    State.cells_eq_of_units (effect_rdsUnit_congr i hcfg hrds) (effect_rotUnit_congr i hcfg hrot)
  rw [exec_eq, exec_eq, hcfg, hout, State.setOut_eq_of_cells heffect (by simp [hcfg]) (by simp [hinputs])]

/-- Settles O34: the output field is none of what an operation reads. -/
theorem outputsAndEventsAreNeverRead : Obligations.OutputsAndEventsAreNeverRead :=
  fun i _ _ => exec_congr i rfl rfl rfl

/-- Settles O33: an accessor only gives an output, which no operation reads. -/
theorem accessorsAreInvisible : Obligations.AccessorsAreInvisible := by
  rintro a i s t (rfl | rfl) h <;> cases h
  · exact exec_congr i rfl rfl rfl
  · exact exec_congr i rfl rfl rfl

/-! ### The data-ready flag -/

/-- A shadow word is written by a successful read or by an `SH_SET` of it, and by nothing else (R21, R24). -/
theorem effect_shadowWord (i : Instr) (s : State) (r : Fin 16) :
    (effect i s).sh[r] = s.sh[r] ∨ (∃ w, i = .shRefresh (.ok w)) ∨ (∃ w, i = .rdsProcess (.ok w)) ∨
      ∃ val, i = .shSet r.val val := by
  cases i with
  | shRefresh bus =>
    cases bus with
    | fail => exact .inl rfl
    | ok w => exact .inr (.inl ⟨w, rfl⟩)
  | rdsProcess bus =>
    cases bus with
    | fail => exact .inl (congrArg (·[r]) (afterTick_sh .fail s))
    | ok w => exact .inr (.inr (.inl ⟨w, rfl⟩))
  | shSet reg val =>
    by_cases hreg : reg = r.val
    · exact .inr (.inr (.inr ⟨val, by rw [hreg]⟩))
    · exact .inl (Vector.getElem_setIfInBounds_ne r.isLt hreg)
  | rotEdge now b => exact .inl (congrArg (·.1[r]) (takeEdge_rdsUnit now b s))
  | _ => exact .inl rfl

/-- Settles O17: the flag is a bit of a shadow word. -/
theorem dataReadyFlagChangesOnlyByReadOrSet : Obligations.DataReadyFlagChangesOnlyByReadOrSet := by
  refine ⟨fun c => by simp [State.ofConfig], fun i s t h hflag => ?_⟩
  obtain ⟨-, rfl⟩ := exec_eq_next_iff.mp h
  refine (effect_shadowWord i s s.cfg.regStatus).resolve_left fun hword => hflag ?_
  rw [State.setOut_sh, hword]

end Sys2Proof.Machine

/-! Proofs about 40_shadow_store.md: the refresh (R110, R118), the commit (R113), the accessors of one word (R115, R116). -/

namespace Sys2Proof.Machine

/-! ### The refresh -/

theorem exec_refresh_ok {w : List Byte} (hlen : w.length = 32) (s : State) :
    exec (.shRefresh (.ok w)) s = .next ((s.setSh (burstWords w)).setOut {}) := by
  simp [exec, execShRefresh, refreshShadow_ok hlen, finish]

/-- Settles O10: the refreshed shadow is `burstWords`, whose register `(0x0A + k) mod 16` is wire word `k`, the bytes `2k` and
`2k + 1`. -/
theorem refreshLoadsReorderedBurst : Obligations.RefreshLoadsReorderedBurst := by
  intro w s hlen
  refine ⟨_, exec_refresh_ok hlen s, fun k hk => ?_, by simp⟩
  have hhi : 2 * k < w.length := by omega
  have hlo : 2 * k + 1 < w.length := by omega
  refine ⟨w[2 * k], w[2 * k + 1], List.getElem?_eq_getElem hhi, List.getElem?_eq_getElem hlo, ?_⟩
  have hword : wireWord w k = w[2 * k] ++ w[2 * k + 1] := by
    rw [wireWord, List.getD_eq_getElem _ _ hhi, List.getD_eq_getElem _ _ hlo]
    rfl
  have hreg : (0x0A + k) % 16 < 16 := Nat.mod_lt _ (by decide)
  have hget := burstWords_wire w k hk
  rw [hword] at hget
  simp [hreg, hget]

/-- Settles O16: the refresh replaces the whole shadow, the set word with it. -/
theorem refreshDiscardsUncommittedSet : Obligations.RefreshDiscardsUncommittedSet := by
  intro reg val w s t hlen h
  obtain ⟨-, rfl⟩ := exec_eq_next_iff.mp h
  exact ⟨_, _, exec_refresh_ok hlen _, exec_refresh_ok hlen s, rfl⟩

/-! ### The commit and the single words -/

/-- Settles O13: both answers of the transport give the same burst on the same state. -/
theorem reportedWriteErrorIsOnlyAnEvent : Obligations.ReportedWriteErrorIsOnlyAnEvent :=
  fun _ => ⟨_, _, exec_of_admitted rfl, exec_of_admitted rfl, rfl, rfl, rfl, rfl⟩

/-- Settles O14: the output of `SH_GET` is the word at its index. -/
theorem getReturnsShadowWord : Obligations.GetReturnsShadowWord := by
  intro reg s hreg
  have hlt : reg < 16 := Nat.lt_succ_of_le hreg
  refine ⟨_, s.sh[reg], exec_of_admitted (decide_eq_true hreg), by simp [hlt], ?result, rfl, rfl, rfl, rfl, rfl⟩
  case result => simp [output, hlt]

/-- Settles O15: the effect of `SH_SET` is an update of the shadow at its index. -/
theorem setWritesOneShadowWord : Obligations.SetWritesOneShadowWord := by
  intro reg val s hreg hval
  have hlt : reg < 16 := Nat.lt_succ_of_le hreg
  refine ⟨_, exec_of_admitted (by simp [admitted, hreg, hval]), ?written, fun r hr => ?others, rfl, rfl, rfl, rfl, rfl⟩
  case written => exact ⟨BitVec.ofNat 16 val, by simp [effect, hlt], Nat.mod_eq_of_lt (Nat.lt_succ_of_le hval)⟩
  case others => simp [effect, Ne.symm hr]

end Sys2Proof.Machine

/-! Proofs about 00_scope.md R12 and 43_rds_reset_accessors.md: stripping, the reset and the accessors. -/

namespace Sys2Proof.Machine

/-! ### Stripping -/

theorem head?_dropWhile_space (l : Str) : (l.dropWhile (· == 0x20)).head? ≠ some 0x20 := by
  intro h
  have hnot := List.head?_dropWhile_not (· == 0x20) l
  simp [h] at hnot

theorem takeWhile_space (l : Str) : l.takeWhile (· == 0x20) = List.replicate (l.takeWhile (· == 0x20)).length 0x20 :=
  List.eq_replicate_of_mem fun _ hc => eq_of_beq (List.mem_takeWhile_imp (p := (· == 0x20)) hc)

theorem strip_reverse (s : Str) : (strip s).reverse = (s.dropWhile (· == 0x20)).reverse.dropWhile (· == 0x20) :=
  List.reverse_reverse _

/-- The two cuts of `strip` put back. -/
theorem strip_append (s : Str) : ∃ m n, s = List.replicate m 0x20 ++ strip s ++ List.replicate n 0x20 := by
  refine ⟨(s.takeWhile (· == 0x20)).length, ((s.dropWhile (· == 0x20)).reverse.takeWhile (· == 0x20)).length, ?_⟩
  have htail : s.dropWhile (· == 0x20) = strip s ++ ((s.dropWhile (· == 0x20)).reverse.takeWhile (· == 0x20)).reverse := by
    rw [← List.reverse_inj, List.reverse_append, List.reverse_reverse, strip_reverse, List.takeWhile_append_dropWhile]
  have hspaces := congrArg List.reverse (takeWhile_space (s.dropWhile (· == 0x20)).reverse)
  rw [List.reverse_replicate] at hspaces
  rw [← takeWhile_space, ← hspaces, List.append_assoc, ← htail, List.takeWhile_append_dropWhile]

theorem strip_getLast? (s : Str) : (strip s).getLast? ≠ some 0x20 := by
  rw [← List.head?_reverse, strip_reverse]
  exact head?_dropWhile_space _

/-- A stripped string is a beginning of one that begins with no space. -/
theorem strip_head? (s : Str) : (strip s).head? ≠ some 0x20 := by
  have hprefix : strip s <+: s.dropWhile (· == 0x20) := List.rdropWhile_prefix _ _
  obtain ⟨rest, hrest⟩ := hprefix
  intro h
  refine head?_dropWhile_space s ?_
  rw [← hrest, List.head?_append, h]
  rfl

/-- Settles O25: `strip` cuts the spaces at the front, then those at the back. -/
theorem stripRemovesOuterSpacesOnly : Obligations.StripRemovesOuterSpacesOnly := by
  intro s
  obtain ⟨m, n, h⟩ := strip_append s
  exact ⟨m, n, h, strip_head? s, strip_getLast? s⟩

/-! ### The reset -/

theorem placeholderText_admitted (sp : Spelling) (p : Placeholder) : placeholderText sp p ∈ admittedPlaceholders sp := by
  cases sp <;> cases p <;> decide

/-- Settles O31: the effect of `RDS_RESET` is two blank buffers beside the texts of `PH`. -/
theorem resetBlanksAccumulator : Obligations.ResetBlanksAccumulator := by
  intro cause s
  have hblank8 (j : Fin 8) : (Vector.replicate 8 (0x20 : Byte))[j] = 0x20 := Vector.getElem_replicate j.isLt
  have hblank64 (j : Fin 64) : (Vector.replicate 64 (0x20 : Byte))[j] = 0x20 := Vector.getElem_replicate j.isLt
  exact ⟨_, exec_of_admitted rfl, hblank8, hblank64, rfl, rfl, placeholderText_admitted _ _, placeholderText_admitted _ _,
    rfl, rfl, rfl, rfl, rfl⟩

/-! ### The accessors -/

/-- Settles O32: the accessors output the cached string; any operation but a reset that changes a buffer joins its string anew. -/
theorem accessorsReturnCachedStrings : Obligations.AccessorsReturnCachedStrings := by
  refine ⟨fun s => ⟨rfl, _, rfl, rfl, rfl, rfl, rfl, rfl, rfl⟩, fun s => ⟨rfl, _, rfl, rfl, rfl, rfl, rfl, rfl, rfl⟩,
    fun i s t h hchanged hreset => ?name, fun i s t h hchanged hreset => ?text, fun c => ⟨_, _, rfl, rfl, rfl, rfl⟩⟩
  case name =>
    obtain ⟨-, rfl⟩ := exec_eq_next_iff.mp h
    have hjoin : (effect i s).psStr = join (effect i s).ps := by
      rcases effect_name i s with hsame | ⟨cause, rfl, -⟩ | ⟨k, cs, hrun⟩
      · exact absurd (congrArg Prod.fst hsame) hchanged
      · exact absurd rfl (hreset cause)
      · exact (congrArg Prod.snd hrun).trans (congrArg (fun p => join p.1) hrun).symm
    exact ⟨hjoin, (congrArg List.length hjoin).trans (join_length _)⟩
  case text =>
    obtain ⟨-, rfl⟩ := exec_eq_next_iff.mp h
    have hjoin : (effect i s).rtStr = strip (join (effect i s).rt) := by
      rcases effect_text i s with hsame | ⟨cause, rfl, -⟩ | ⟨k, cs, hrun⟩
      · exact absurd (congrArg Prod.fst hsame) hchanged
      · exact absurd rfl (hreset cause)
      · exact (congrArg Prod.snd hrun).trans (congrArg (fun p => strip (join p.1)) hrun).symm
    rw [State.setOut_rtStr, hjoin]
    exact ⟨rfl, (strip_length_le _).trans_eq (join_length _), strip_head? _, strip_getLast? _⟩

/-! ### No name is a placeholder -/

theorem join_lt {n : Nat} (buf : Vector Byte n) : ∀ c ∈ join buf, c < 256 := by
  intro c hc
  obtain ⟨x, -, rfl⟩ := List.mem_map.mp hc
  exact x.isLt

/-- A placeholder has not eight code points, or holds one that is no character code (U+2026). -/
theorem placeholderText_length_or (sp : Spelling) (p : Placeholder) :
    (placeholderText sp p).length ≠ 8 ∨ 0x2026 ∈ placeholderText sp p := by
  cases sp <;> cases p <;> decide

theorem join_ne_ph (buf : Vector Byte 8) (c : Config) (cause : Cause) (line : Line) : join buf ≠ ph c cause line := by
  intro h
  rcases placeholderText_length_or c.spelling (phChoice c cause line) with hlen | hmem
  · exact hlen ((congrArg List.length h).symm.trans (join_length buf))
  · exact absurd (join_lt buf 0x2026 (h.symm ▸ hmem)) (by decide)

/-- Settles O37: a name joined from its buffer has eight character codes, which no placeholder is. -/
theorem decodedNameIsNeverAPlaceholder : Obligations.DecodedNameIsNeverAPlaceholder := by
  refine ⟨fun s cause => join_ne_ph s.ps s.cfg cause .name, fun seg d cause s t u a b ht hwrote ha hu hb heq => ?_⟩
  cases ht
  cases ha
  cases hu
  cases hb
  have hstr : (groupName seg d s).psStr = join (groupName seg d s).ps := if_pos ((wrote_iff (psChars d)).mpr hwrote)
  refine join_ne_ph (groupName seg d s).ps s.cfg cause .name (hstr.symm.trans ?_)
  exact Value.str.inj (Option.some.inj heq)

end Sys2Proof.Machine

/-! Proofs about 42_rds_process.md: when the tick runs its group (R150 to R155), groups repeated and reordered (R163, R165), what a
written character does (R70), and the stale group (R270). -/

namespace Sys2Proof.Machine

/-! ### When the tick runs its group -/

/-- The flag of the refreshed shadow clear: the tick ends there (R153). -/
theorem tickRuns_of_clear {bus : BusAnswer} {u : State} (h : dataReady u = false) : ¬tickRuns bus u = true := by
  simp [tickRuns, h]

/-- The flag set, and the read not failed under `SKIP`: the tick goes on (R152, R154). -/
theorem tickRuns_of_ready {bus : BusAnswer} {u : State} (hgoes : bus ≠ .fail ∨ u.cfg.stalePolicy = .proceed)
    (h : dataReady u = true) : tickRuns bus u = true := by
  simp [tickRuns, h, endsTick_eq_false hgoes]

theorem not_tickRuns_of_skip {u : State} (h : u.cfg.stalePolicy = .skip) : ¬tickRuns .fail u = true := by
  simp [tickRuns, endsTick, h]

theorem dataReady_refreshed (bus : BusAnswer) (s : State) :
    dataReady (refreshed bus s) = (refreshed bus s).sh[s.cfg.regStatus].getLsbD 15 := by
  cases bus <;> rfl

theorem readGroup_refreshed (bus : BusAnswer) (s : State) :
    readGroup (refreshed bus s) = decodeGroup (refreshed bus s).sh[s.cfg.regRdsb] (refreshed bus s).sh[s.cfg.regRdsc]
      (refreshed bus s).sh[s.cfg.regRdsd] := by
  cases bus <;> rfl

/-- Settles O19: with the flag clear the tick ends in the refreshed state, and no group writes the shadow. -/
theorem dataNotReadyLeavesAccumulator : Obligations.DataNotReadyLeavesAccumulator := by
  intro bus s u hu
  obtain ⟨hadm, rfl⟩ := exec_eq_next_iff.mp hu
  refine ⟨fun hclear => ⟨_, exec_of_admitted (i := .rdsProcess bus) hadm, ?_⟩, fun t ht => ?_⟩
  · have hends : effect (.rdsProcess bus) s = refreshed bus s :=
      afterTick_of_not_runs (tickRuns_of_clear ((dataReady_refreshed bus s).trans hclear))
    rw [hends]
    exact ⟨refreshed_accumulator bus s, rfl⟩
  · obtain ⟨-, rfl⟩ := exec_eq_next_iff.mp ht
    exact afterTick_sh bus (refreshed bus s)

theorem afterGroup_setOut (g : Group) (s : State) (o : Output) : afterGroup g (s.setOut o) = (afterGroup g s).setOut o := by
  cases g <;> rfl

theorem exec_group (g : Group) (s : State) :
    exec g.toInstr s = .next ((afterGroup g s).setOut { events := groupEvents g }) := by
  rw [exec_toInstr, runGroup_eq]

/-- A tick that goes on is the group of its refreshed shadow, the events of the read first (R154, R155, R237). -/
theorem execRdsProcess_of_runs {bus : BusAnswer} {s : State} (hwf : bus.wf = true)
    (hruns : tickRuns bus (refreshed bus s) = true) :
    execRdsProcess bus s = .next ((afterGroup (readGroup (refreshed bus s)) (refreshed bus s)).setOut
      { events := readEvents bus ++ groupEvents (readGroup (refreshed bus s)) }) := by
  rw [execRdsProcess_of_wf hwf, afterTick_of_runs hruns, tickEvents, if_pos hruns]

/-- Settles O20: the tick that goes on is the group of the refreshed shadow, its events after those of the read. -/
theorem dataReadyRunsSelectedGroup : Obligations.DataReadyRunsSelectedGroup := by
  intro bus s u hu hgoes hready
  obtain ⟨hwf, rfl⟩ := exec_eq_next_iff.mp hu
  have hruns : tickRuns bus (refreshed bus s) = true :=
    tickRuns_of_ready ((refreshed_cfg bus s).symm ▸ hgoes) ((dataReady_refreshed bus s).trans hready)
  refine ⟨_, _, execRdsProcess_of_runs hwf hruns, exec_group _ _, ?_⟩
  rw [State.setOut_sh, effect, ← readGroup_refreshed, afterGroup_setOut]
  simp [output]

/-- Settles O21: under `SKIP` the tick ends at the failed read, which changes nothing. -/
theorem skipPolicyEndsTickAtFailedRead : Obligations.SkipPolicyEndsTickAtFailedRead := by
  intro s hskip
  have hends : effect (.rdsProcess .fail) s = s := afterTick_of_not_runs (not_tickRuns_of_skip hskip)
  have hevents : tickEvents .fail s = [] := if_neg (not_tickRuns_of_skip hskip)
  refine ⟨_, exec_of_admitted rfl, ?_⟩
  rw [hends]
  exact ⟨rfl, rfl, rfl, congrArg (Event.transportReadFail :: ·) hevents⟩

/-! ### The other status bits -/

theorem State.name_text_of_accumulator {s t : State} (h : s.accumulator = t.accumulator) :
    s.name = t.name ∧ s.text = t.text := by
  simp only [State.accumulator, Prod.mk.injEq] at h
  simp [State.name, State.text, h]

theorem State.accumulator_of_name_text {s t : State} (hname : s.name = t.name) (htext : s.text = t.text) :
    s.accumulator = t.accumulator := by
  simp only [State.name, State.text, Prod.mk.injEq] at hname htext
  simp [State.accumulator, hname, htext]

/-- A group reads the accumulator alone. -/
theorem afterGroup_accumulator_congr (g : Group) {u u' : State} (h : u'.accumulator = u.accumulator) :
    (afterGroup g u').accumulator = (afterGroup g u).accumulator := by
  obtain ⟨hname, htext⟩ := State.name_text_of_accumulator h
  refine State.accumulator_of_name_text ?_ ?_
  · rw [afterGroup_name, afterGroup_name, hname]
  · rw [afterGroup_text, afterGroup_text, htext]

theorem endsTick_congr {bus bus' : BusAnswer} (h : bus = .fail ↔ bus' = .fail) (c : Config) :
    endsTick c bus' = endsTick c bus := by
  by_cases hfail : bus = .fail
  · rw [hfail, h.mp hfail]
  · rw [endsTick_eq_false (.inl hfail), endsTick_eq_false (.inl (mt h.mpr hfail))]

theorem readEvents_congr {bus bus' : BusAnswer} (h : bus = .fail ↔ bus' = .fail) : readEvents bus' = readEvents bus := by
  cases bus with
  | fail => rw [h.mp rfl]
  | ok w =>
    cases bus' with
    | fail => cases h.mpr rfl
    | ok w' => rfl

/-- Settles O22: the flag decides whether the group runs, the three blocks which, and the status word is read for nothing else. -/
theorem otherStatusBitsDoNotMatter : Obligations.OtherStatusBitsDoNotMatter := by
  intro bus bus' s s' u u' t t' hbus hcfg hacc hu hu' hother hflag hb hc hd ht ht'
  obtain ⟨-, rfl⟩ := exec_eq_next_iff.mp hu
  obtain ⟨-, rfl⟩ := exec_eq_next_iff.mp hu'
  obtain ⟨-, rfl⟩ := exec_eq_next_iff.mp ht
  obtain ⟨-, rfl⟩ := exec_eq_next_iff.mp ht'
  have hready : dataReady (refreshed bus' s') = dataReady (refreshed bus s) := by
    simp only [dataReady_refreshed, hcfg]
    exact hflag
  have hgroup : readGroup (refreshed bus' s') = readGroup (refreshed bus s) := by
    simp only [readGroup_refreshed, hcfg]
    exact congr (congr (congrArg decodeGroup (hother _ hb.symm)) (hother _ hc.symm)) (hother _ hd.symm)
  have hruns : tickRuns bus' (refreshed bus' s') = tickRuns bus (refreshed bus s) := by
    rw [tickRuns, tickRuns, refreshed_cfg, refreshed_cfg, hcfg, endsTick_congr hbus, hready]
  have hacc' : (refreshed bus' s').accumulator = (refreshed bus s).accumulator := by
    rw [refreshed_accumulator, refreshed_accumulator, hacc]
  refine ⟨?accumulator, ?out⟩
  case accumulator =>
    change (afterTick bus' (refreshed bus' s')).accumulator = (afterTick bus (refreshed bus s)).accumulator
    rw [afterTick, afterTick, hruns, hgroup]
    split
    · exact afterGroup_accumulator_congr _ hacc'
    · exact hacc'
  case out => simp only [State.setOut_out, output, tickEvents, hruns, hgroup, readEvents_congr hbus]

/-! ### Groups repeated -/

theorem writeRun_writeRun {n : Nat} (f : Vector Byte n → Str) (k : Nat) (cs : List Byte) (p : Vector Byte n × Str) :
    writeRun f k cs (writeRun f k cs p) = writeRun f k cs p := by
  by_cases h : wrote cs = true
  · simp only [writeRun_of_wrote h, putChars_putChars]
  · simp only [writeRun_of_not_wrote h]

theorem State.cells_eq_of_parts {s t : State} (hsh : s.sh = t.sh) (hname : s.name = t.name) (htext : s.text = t.text)
    (hrot : s.rotUnit = t.rotUnit) : s.cells = t.cells := by
  simp only [State.name, State.text, State.rotUnit, Prod.mk.injEq] at hname htext hrot
  simp [State.cells, hsh, hname, htext, hrot]

theorem afterGroup_afterGroup_cells (g : Group) (s : State) : (afterGroup g (afterGroup g s)).cells = (afterGroup g s).cells := by
  refine State.cells_eq_of_parts (by simp) ?name ?text (by simp)
  case name => simp only [afterGroup_name, writeRun_writeRun]
  case text => simp only [afterGroup_text, writeRun_writeRun]

theorem afterTick_setOut (bus : BusAnswer) (u : State) (o : Output) :
    afterTick bus (u.setOut o) = (afterTick bus u).setOut o := by
  have hruns : tickRuns bus (u.setOut o) = tickRuns bus u := rfl
  rw [afterTick, afterTick, hruns]
  split
  · exact afterGroup_setOut (readGroup u) u o
  · rfl

theorem refreshed_setOut (bus : BusAnswer) (s : State) (o : Output) :
    refreshed bus (s.setOut o) = (refreshed bus s).setOut o := by
  cases bus <;> rfl

/-- After a tick on a successful read, a tick on the same shadow runs the same group again, or nothing. -/
theorem afterTick_again (bus : BusAnswer) (w : List Byte) (u : State) :
    (afterTick bus (afterTick (.ok w) u)).cells = (afterTick (.ok w) u).cells := by
  by_cases hready : dataReady u = true
  · have hfirst : afterTick (.ok w) u = afterGroup (readGroup u) u :=
      afterTick_of_runs (tickRuns_of_ready (.inl (by simp)) hready)
    have hgroup : readGroup (afterGroup (readGroup u) u) = readGroup u := by simp [readGroup]
    rw [hfirst]
    by_cases hruns : tickRuns bus (afterGroup (readGroup u) u) = true
    · rw [afterTick_of_runs hruns, hgroup, afterGroup_afterGroup_cells]
    · rw [afterTick_of_not_runs hruns]
  · have hclear : dataReady u = false := Bool.eq_false_of_not_eq_true hready
    rw [afterTick_of_not_runs (bus := .ok w) (tickRuns_of_clear hclear), afterTick_of_not_runs (tickRuns_of_clear hclear)]

/-- The burst a tick has read brings back the same shadow. -/
theorem refreshed_afterTick (w : List Byte) (s : State) :
    refreshed (.ok w) (afterTick (.ok w) (refreshed (.ok w) s)) = afterTick (.ok w) (refreshed (.ok w) s) := by
  have hsh : (afterTick (.ok w) (refreshed (.ok w) s)).sh = burstWords w := afterTick_sh _ _
  rw [refreshed, ← hsh, State.setSh_self]

/-- Settles O29: a run of characters written again changes nothing, and the second tick finds the same shadow. -/
theorem repeatedGroupEqualsOne : Obligations.RepeatedGroupEqualsOne := by
  refine ⟨fun g s t h => ?group, fun w s t h => ?tick⟩
  case group =>
    cases (exec_group g s).symm.trans h
    refine ⟨_, exec_group g _, ?_⟩
    rw [afterGroup_setOut]
    exact afterGroup_afterGroup_cells g s
  case tick =>
    obtain ⟨hadm, rfl⟩ := exec_eq_next_iff.mp h
    refine ⟨⟨_, exec_of_admitted (i := .rdsProcess (.ok w)) hadm, ?same⟩, ⟨_, exec_of_admitted rfl, ?failed⟩⟩
    case same =>
      rw [State.setOut_cells, State.setOut_cells, effect, effect, refreshed_setOut, refreshed_afterTick, afterTick_setOut]
      exact afterTick_again (.ok w) w _
    case failed =>
      rw [State.setOut_cells, State.setOut_cells, effect, effect, refreshed, afterTick_setOut]
      exact afterTick_again .fail w _

/-! ### Groups on different slots -/

/-- Two runs, each with its place, that share no position. -/
def Apart (r r' : Nat × List Byte) : Prop := r.1 + r.2.length ≤ r'.1 ∨ r'.1 + r'.2.length ≤ r.1

theorem writeRun_comm {n : Nat} (f : Vector Byte n → Str) {r r' : Nat × List Byte} (h : Apart r r') (p : Vector Byte n × Str) :
    writeRun f r'.1 r'.2 (writeRun f r.1 r.2 p) = writeRun f r.1 r.2 (writeRun f r'.1 r'.2 p) := by
  by_cases hr : wrote r.2 = true
  · by_cases hr' : wrote r'.2 = true
    · simp only [writeRun_of_wrote hr, writeRun_of_wrote hr', putChars_comm r.2 r'.2 p.1 r.1 r'.1 h]
    · simp only [writeRun_of_not_wrote hr']
  · simp only [writeRun_of_not_wrote hr]

theorem afterGroup_comm_cells {g g' : Group} (hname : Apart (nameRun g) (nameRun g')) (htext : Apart (textRun g) (textRun g'))
    (s : State) : (afterGroup g' (afterGroup g s)).cells = (afterGroup g (afterGroup g' s)).cells := by
  refine State.cells_eq_of_parts (by simp) ?name ?text (by simp)
  case name => simp only [afterGroup_name, writeRun_comm join hname]
  case text => simp only [afterGroup_text, writeRun_comm _ htext]

theorem apart_psRuns {a b : BitVec 2} (h : a ≠ b) (d d' : Word) : Apart (psIndex a, psChars d) (psIndex b, psChars d') := by
  have hne : a.toNat ≠ b.toNat := fun e => h (BitVec.eq_of_toNat_eq e)
  simp only [Apart, psIndex, psChars, charPair, List.length_cons, List.length_nil]
  omega

theorem apart_rtRuns {a b : BitVec 4} (h : a ≠ b) (c d c' d' : Word) :
    Apart (rtIndex a, rtChars c d) (rtIndex b, rtChars c' d') := by
  have hne : a.toNat ≠ b.toNat := fun e => h (BitVec.eq_of_toNat_eq e)
  simp only [Apart, rtIndex, rtChars, charPair, List.length_append, List.length_cons, List.length_nil]
  omega

theorem apart_empty_left (r : Nat × List Byte) : Apart (0, []) r := .inl (Nat.zero_le _)

theorem apart_empty_right (r : Nat × List Byte) : Apart r (0, []) := .inr (Nat.zero_le _)

theorem exec_groups_comm {g g' : Group} (hname : Apart (nameRun g) (nameRun g')) (htext : Apart (textRun g) (textRun g'))
    {s s₁ s₁₂ s₂ s₂₁ : State} (h₁ : exec g.toInstr s = .next s₁) (h₁₂ : exec g'.toInstr s₁ = .next s₁₂)
    (h₂ : exec g'.toInstr s = .next s₂) (h₂₁ : exec g.toInstr s₂ = .next s₂₁) : s₁₂.cells = s₂₁.cells := by
  cases (exec_group g s).symm.trans h₁
  cases (exec_group g' s).symm.trans h₂
  cases (exec_group g' _).symm.trans h₁₂
  cases (exec_group g _).symm.trans h₂₁
  simp only [afterGroup_setOut, State.setOut_cells, afterGroup_comm_cells hname htext]

/-- Settles O30: two groups on different slots, or on different buffers, write runs that share no position. -/
theorem groupsOnDifferentSlotsCommute : Obligations.GroupsOnDifferentSlotsCommute := by
  rintro i j s s₁ s₁₂ s₂ s₂₁
    (⟨a, b, d, d', hne, rfl, rfl⟩ | ⟨a, b, c, d, c', d', hne, rfl, rfl⟩ | ⟨a, b, d, c', d', rfl, rfl⟩)
  · exact exec_groups_comm (g := .ps a d) (g' := .ps b d') (apart_psRuns hne d d') (apart_empty_left _)
  · exact exec_groups_comm (g := .rt a c d) (g' := .rt b c' d') (apart_empty_left _) (apart_rtRuns hne c d c' d')
  · exact exec_groups_comm (g := .ps a d) (g' := .rt b c' d') (apart_empty_right _) (apart_empty_left _)

/-! ### A written character -/

/-- A printable character of a run stands at its position afterwards (R157). -/
theorem putChars_getElem?_printable {n : Nat} (buf : Vector Byte n) {cs : List Byte} {i k : Nat} {c : Byte}
    (hc : cs[k]? = some c) (h : i + k < n) (hlo : 32 ≤ c.toNat) (hhi : c.toNat ≤ 126) :
    (putChars buf i cs).toList[i + k]? = some c := by
  rw [putChars_getElem?_run buf hc h, if_pos ((printable_iff c).mpr ⟨hlo, hhi⟩)]

/-- Settles O35: a run with a printable character has its string joined anew, and holds that character. -/
theorem writtenCharacterShowsAtOnce : Obligations.WrittenCharacterShowsAtOnce := by
  refine ⟨fun seg d s hwrote => ?name, fun seg c d s hwrote => ?text⟩
  case name =>
    have hstr : (groupName seg d s).psStr = join (groupName seg d s).ps := if_pos ((wrote_iff (psChars d)).mpr hwrote)
    refine ⟨_, _, rfl, rfl, congrArg (some ∘ Value.str) hstr, fun k ch hch => ?_⟩
    have hle := psIndex_le seg
    exact putChars_getElem?_printable s.ps (cs := psChars d) (i := psIndex seg) hch (by omega)
  case text =>
    have hstr : (groupText seg c d s).rtStr = strip (join (groupText seg c d s).rt) :=
      if_pos ((wrote_iff (rtChars c d)).mpr hwrote)
    refine ⟨_, _, rfl, rfl, congrArg (some ∘ Value.str) hstr, fun k ch hch => ?_⟩
    have hle := rtIndex_le seg
    exact putChars_getElem?_printable s.rt (cs := rtChars c d) (i := rtIndex seg) hch (by omega)

/-! ### The stale group -/

/-- Settles O36: the reset leaves the shadow, so the tick after it finds the flag and the group as they were. -/
theorem staleGroupSurvivesReset : Obligations.StaleGroupSurvivesReset := by
  intro cause s t h hready
  cases h
  refine ⟨fun hproceed => ?proceed, fun hskip => ?skip⟩
  case proceed =>
    have hruns : tickRuns .fail (effect (.rdsReset cause) s) = true := tickRuns_of_ready (.inr hproceed) hready
    exact ⟨_, _, execRdsProcess_of_runs (bus := .fail) rfl hruns, exec_group _ _, rfl⟩
  case skip =>
    refine ⟨_, exec_of_admitted rfl, ?_⟩
    rw [State.setOut_cells, effect, refreshed]
    exact congrArg State.cells (afterTick_of_not_runs (not_tickRuns_of_skip hskip))

end Sys2Proof.Machine

/-! Proofs about 44_rotary.md: what an accepted edge records (R194), the bound on the moves (R202), `ROT_SET` (R196). -/

namespace Sys2Proof.Machine

/-- Settles O40: the handler discards or accepts, and the elapsed time tells which. -/
theorem acceptedEdgeRecordsTimeAndLevel : Obligations.AcceptedEdgeRecordsTimeAndLevel := by
  intro now b s
  refine ⟨_, rfl, fun haccepted => ?accepted, fun hdiscarded => ?discarded⟩
  case accepted =>
    rcases takeEdge_cases now b s with ⟨hlt, -⟩ | ⟨-, h⟩
    · exact absurd hlt (Int.not_lt.mpr haccepted)
    · rw [h]
      exact ⟨rfl, rfl⟩
  case discarded =>
    rcases takeEdge_cases now b s with ⟨-, h⟩ | ⟨hge, -⟩
    · rw [h]
      exact ⟨rfl, rfl⟩
    · exact absurd hdiscarded (Int.not_lt.mpr hge)

/-- Settles O43: `ROT_SET` in the range writes the value alone, and an edge before it moves no limit of the range. -/
theorem setValueStoresOnlyTheValue : Obligations.SetValueStoresOnlyTheValue := by
  intro v s hmin hmax
  have hadm : admitted s.cfg (.rotSet v) = true := by simp [admitted, hmin, hmax]
  refine ⟨⟨_, exec_of_admitted hadm, rfl, rfl, rfl, rfl, rfl, rfl, rfl⟩, fun now b u hu => ?_⟩
  obtain ⟨hcfg, -⟩ := exec_keeps_cfg_inputs hu
  exact ⟨_, exec_of_admitted (hcfg.symm ▸ hadm), rfl, rfl⟩

/-! ### The bound on the moves -/

/-- From `v` to `v'` is at most `n` steps, up or down. -/
def WithinSteps (step : Int) (n : Nat) (v v' : Int) : Prop := v' - v ≤ n * step ∧ v - v' ≤ n * step

theorem WithinSteps.refl (step v : Int) : WithinSteps step 0 v v := by
  simp [WithinSteps]

theorem WithinSteps.trans {step : Int} {m n : Nat} {v v' v'' : Int} (h : WithinSteps step m v v')
    (h' : WithinSteps step n v' v'') : WithinSteps step (m + n) v v'' := by
  obtain ⟨hup, hdown⟩ := h
  obtain ⟨hup', hdown'⟩ := h'
  rw [WithinSteps, Nat.cast_add, add_mul]
  omega

/-- Clamping a value that was in the range, moved by one step, moves it by one step at most (R193). -/
theorem stepValue_withinSteps {c : Config} (hwf : c.WF) {v : Int} (hmin : c.rotMin ≤ v) (hmax : v ≤ c.rotMax) (b : Bool) :
    WithinSteps c.rotStep 1 v (stepValue c v b) := by
  obtain ⟨-, -, -, hstep⟩ := hwf
  rw [stepValue_eq, clamp, WithinSteps, Nat.cast_one, one_mul]
  split <;> omega

theorem acceptedEdges_cons_of_not_edge {i : Instr} (hi : isEdge i = false) (is : List Instr) (last : Nat) :
    acceptedEdges (i :: is) last = acceptedEdges is last := by
  cases i with
  | rotEdge now b => cases hi
  | _ => rfl

theorem acceptedEdges_cons_of_discarded {now last : Nat} (h : elapsed now last < 50) (b : Bool) (is : List Instr) :
    acceptedEdges (.rotEdge now b :: is) last = acceptedEdges is last := if_pos h

theorem acceptedEdges_cons_of_accepted {now last : Nat} (h : 50 ≤ elapsed now last) (b : Bool) (is : List Instr) :
    acceptedEdges (.rotEdge now b :: is) last = acceptedEdges is now + 1 := if_neg (Int.not_lt.mpr h)

/-- `ROT_VAL` is written by edges and by `ROT_SET` alone (R43). -/
theorem effect_rotVal {i : Instr} (hedge : isEdge i = false) (hset : ∀ v, i ≠ .rotSet v) (s : State) :
    (effect i s).rotVal = s.rotVal := by
  cases hi : isRotary i with
  | false => exact State.rotVal_of_rotUnit (effect_rotUnit hi s)
  | true =>
    cases i with
    | rotGet => rfl
    | rotSet v => exact absurd rfl (hset v)
    | rotEdge now b => cases hedge
    | _ => cases hi

/-- One operation moves the value by as many steps at most as it counts among the accepted edges: none or one. -/
theorem effect_withinSteps {i : Instr} (hset : ∀ v, i ≠ .rotSet v) {s : State} (hwf : s.cfg.WF) (hrot : RotaryInv s)
    (is : List Instr) :
    ∃ n, acceptedEdges (i :: is) s.rotT = n + acceptedEdges is (effect i s).rotT ∧
      WithinSteps s.cfg.rotStep n s.rotVal (effect i s).rotVal := by
  cases hedge : isEdge i with
  | false =>
    refine ⟨0, ?_, ?_⟩
    · rw [acceptedEdges_cons_of_not_edge hedge, (effect_edgeRecord hedge s).1, Nat.zero_add]
    · rw [effect_rotVal hedge hset]
      exact .refl _ _
  | true =>
    cases i with
    | rotEdge now b =>
      rcases takeEdge_cases now b s with ⟨hlt, h⟩ | ⟨hge, h⟩
      · rw [effect, h, acceptedEdges_cons_of_discarded hlt]
        exact ⟨0, (Nat.zero_add _).symm, .refl _ _⟩
      · rw [effect, h, acceptedEdges_cons_of_accepted hge]
        exact ⟨1, Nat.add_comm _ _, stepValue_withinSteps hwf hrot.1 hrot.2 b⟩
    | _ => cases hedge

theorem execAll_cons_eq_next {i : Instr} {is : List Instr} {s t : State} (h : execAll (i :: is) s = .next t) :
    ∃ u, exec i s = .next u ∧ execAll is u = .next t := by
  rw [execAll] at h
  cases hi : exec i s with
  | next u => exact ⟨u, rfl, by simpa [hi] using h⟩
  | fault f => cases f
  | refused e => simp [hi] at h

theorem execAll_withinSteps {is : List Instr} {s t : State} (hwf : s.cfg.WF) (hrot : RotaryInv s)
    (hset : ∀ v, Instr.rotSet v ∉ is) (h : execAll is s = .next t) :
    WithinSteps s.cfg.rotStep (acceptedEdges is s.rotT) s.rotVal t.rotVal := by
  induction is generalizing s with
  | nil =>
    cases h
    exact .refl _ _
  | cons i is ih =>
    obtain ⟨u, hu, hrest⟩ := execAll_cons_eq_next h
    obtain ⟨hadm, rfl⟩ := exec_eq_next_iff.mp hu
    have hi (v : Int) : i ≠ .rotSet v := fun e => hset v (e ▸ List.mem_cons_self)
    have his (v : Int) : Instr.rotSet v ∉ is := fun hmem => hset v (List.mem_cons_of_mem i hmem)
    obtain ⟨n, hcount, hfirst⟩ := effect_withinSteps hi hwf hrot is
    have hlater := ih (s := (effect i s).setOut (output i s)) ((effect_cfg i s).symm ▸ hwf) (effect_rotaryInv hwf hrot hadm) his hrest
    rw [State.setOut_cfg, effect_cfg] at hlater
    rw [hcount]
    exact hfirst.trans hlater

/-- Settles O41: an accepted edge moves the value by one step at most, any other operation but `ROT_SET` not at all. -/
theorem valueMovesAtMostOneStepPerAcceptedEdge : Obligations.ValueMovesAtMostOneStepPerAcceptedEdge :=
  fun _ _ _ hwf hrot hset h => execAll_withinSteps hwf hrot hset h

end Sys2Proof.Machine

/-! Proofs about 10_state.md section 6, 60_exceptions.md section 1 and 70_reset_and_hazards.md: the reset state and the check of the
configuration (R204, R231, R260). -/

namespace Sys2Proof.Machine

/-! ### The reset state -/

theorem BlockInv.ofConfig {c : Config} (hwf : c.WF) : BlockInv (State.ofConfig c) := by
  have ⟨_, hmin, hmax, _⟩ := hwf
  exact ⟨hwf, ⟨blank_allPrintable 8, blank_allPrintable 64⟩, ⟨hmin, hmax⟩, .inr ⟨rfl, .inl rfl⟩, .inr ⟨rfl, .inl rfl⟩⟩

/-- Settles O46: the standard parameters keep the premises. -/
theorem resetMeetsInvariant : Obligations.ResetMeetsInvariant := BlockInv.ofConfig (c := Config.standard) (by decide)

/-- Settles O48: the reset cells are constants, and their flag is clear. -/
theorem resetStateIsAsGiven : Obligations.ResetStateIsAsGiven := by
  intro c
  have hclear : dataReady (State.ofConfig c) = false := by simp [dataReady, State.ofConfig]
  refine ⟨?shadow, ?name, ?text, rfl, rfl, rfl, rfl, rfl, rfl, _, exec_of_admitted (i := .rdsProcess .fail) rfl, ?tick⟩
  case shadow => exact fun r => Vector.getElem_replicate r.isLt
  case name => exact fun j => Vector.getElem_replicate j.isLt
  case text => exact fun j => Vector.getElem_replicate j.isLt
  case tick =>
    rw [State.setOut_cells, effect, refreshed]
    exact congrArg State.cells (afterTick_of_not_runs (tickRuns_of_clear hclear))

/-! ### The strings where the invariant holds -/

theorem mem_of_mem_strip {s : Str} {c : CodePoint} (h : c ∈ strip s) : c ∈ s := by
  obtain ⟨m, n, hs⟩ := strip_append s
  rw [hs]
  simp [h]

/-- Settles O47: each string is the one its buffer gives, whose characters are printable, or a reset's. -/
theorem stringsHaveTheirShapes : Obligations.StringsHaveTheirShapes := by
  rintro s ⟨-, ⟨hps, hrt⟩, -, hname, htext⟩
  refine ⟨hname.elim (fun h => .inr ?_) fun h => .inl h.2, htext.elim (fun h => .inr ?_) fun h => .inl h.2⟩
  · rw [h]
    exact ⟨join_length s.ps, mem_join_allPrintable hps⟩
  · rw [h]
    exact ⟨(strip_length_le _).trans_eq (join_length s.rt), fun c hc => mem_join_allPrintable hrt c (mem_of_mem_strip hc),
      strip_head? _, strip_getLast? _⟩

/-! ### The check of a configuration -/

/-- `c` holds every parameter as `r` binds it. -/
def Binds (r : RawConfig) (c : Config) : Prop :=
  c.regStatus.val = r.regStatus ∧ c.regRdsb.val = r.regRdsb ∧ c.regRdsc.val = r.regRdsc ∧ c.regRdsd.val = r.regRdsd ∧
  ph c .retune .name = r.phRetuneName ∧ ph c .retune .text = r.phRetuneText ∧
  ph c .seek .name = r.phSeekName ∧ ph c .seek .text = r.phSeekText ∧
  c.rotMin = r.rotMin ∧ c.rotMax = r.rotMax ∧ c.rotStep = r.rotStep ∧ c.rotStart = r.rotStart ∧
  c.rotPol = r.rotPol ∧ c.t0 = r.t0 ∧ c.stalePolicy = r.stalePolicy ∧ c.rotB0 = r.rotB0 ∧
  c.busAddr = r.busAddr ∧ c.spelling = r.spelling

theorem admittedPlaceholders_eq (sp : Spelling) :
    admittedPlaceholders sp = [.empty, .scanning, .seeking].map (placeholderText sp) := by
  cases sp <;> rfl

theorem exists_placeholder {sp : Spelling} {s : Str} (h : s ∈ admittedPlaceholders sp) : ∃ p, placeholderText sp p = s := by
  rw [admittedPlaceholders_eq] at h
  obtain ⟨p, -, hp⟩ := List.mem_map.mp h
  exact ⟨p, hp⟩

theorem placeholderOf?_placeholderText (sp : Spelling) (p : Placeholder) :
    placeholderOf? sp (placeholderText sp p) = some p := by
  cases sp <;> cases p <;> decide

/-- The check answers exactly the configurations that bind the raw one and keep the premises of R204. -/
theorem check_eq_some_iff {r : RawConfig} {c : Config} : RawConfig.check r = some c ↔ c.WF ∧ Binds r c := by
  constructor
  · intro h
    simp only [RawConfig.check, Option.bind_eq_bind, Option.bind_eq_some_iff] at h
    obtain ⟨st, hst, b, hb, rc, hc, d, hd, rn, hrn, rt, hrt, sn, hsn, stx, hstx, h⟩ := h
    split at h
    · rename_i hwf
      cases h
      exact ⟨hwf, (regIndex?_some hst).2, (regIndex?_some hb).2, (regIndex?_some hc).2, (regIndex?_some hd).2,
        placeholderOf?_some hrn, placeholderOf?_some hrt, placeholderOf?_some hsn, placeholderOf?_some hstx,
        rfl, rfl, rfl, rfl, rfl, rfl, rfl, rfl, rfl, rfl⟩
    · cases h
  · rintro ⟨hwf, hbinds⟩
    cases r
    obtain ⟨rfl, rfl, rfl, rfl, rfl, rfl, rfl, rfl, rfl, rfl, rfl, rfl, rfl, rfl, rfl, rfl, rfl, rfl⟩ := hbinds
    simp [RawConfig.check, regIndex?_val, ph, placeholderOf?_placeholderText, phChoice, hwf]

theorem valid_of_binds {r : RawConfig} {c : Config} (hwf : c.WF) (h : Binds r c) : RawConfig.Valid r := by
  cases r
  obtain ⟨rfl, rfl, rfl, rfl, rfl, rfl, rfl, rfl, rfl, rfl, rfl, rfl, rfl, rfl, rfl, rfl, rfl, rfl⟩ := h
  have hreg (x : Fin 16) : x.val ≤ 15 := Nat.le_of_lt_succ x.isLt
  have hph (cause : Cause) (line : Line) : ph c cause line ∈ admittedPlaceholders c.spelling := placeholderText_admitted _ _
  exact ⟨hreg _, hreg _, hreg _, hreg _, hph _ _, hph _ _, hph _ _, hph _ _, hwf⟩

/-- A raw configuration that keeps the premises of R231 binds one that keeps those of R204. -/
theorem exists_binds {r : RawConfig} (h : RawConfig.Valid r) : ∃ c : Config, c.WF ∧ Binds r c := by
  obtain ⟨hst, hb, hc, hd, hrn, hrt, hsn, hsx, hwf⟩ := h
  obtain ⟨rn, hrn⟩ := exists_placeholder hrn
  obtain ⟨rt, hrt⟩ := exists_placeholder hrt
  obtain ⟨sn, hsn⟩ := exists_placeholder hsn
  obtain ⟨sx, hsx⟩ := exists_placeholder hsx
  refine ⟨{ regStatus := ⟨r.regStatus, Nat.lt_succ_of_le hst⟩, regRdsb := ⟨r.regRdsb, Nat.lt_succ_of_le hb⟩,
            regRdsc := ⟨r.regRdsc, Nat.lt_succ_of_le hc⟩, regRdsd := ⟨r.regRdsd, Nat.lt_succ_of_le hd⟩,
            phRetuneName := rn, phRetuneText := rt, phSeekName := sn, phSeekText := sx, spelling := r.spelling,
            rotMin := r.rotMin, rotMax := r.rotMax, rotStep := r.rotStep, rotStart := r.rotStart, rotPol := r.rotPol,
            t0 := r.t0, stalePolicy := r.stalePolicy, busAddr := r.busAddr, rotB0 := r.rotB0 }, hwf, ?_⟩
  exact ⟨rfl, rfl, rfl, rfl, hrn, hrt, hsn, hsx, rfl, rfl, rfl, rfl, rfl, rfl, rfl, rfl, rfl, rfl⟩

theorem powerOn_of_binds {r : RawConfig} {c : Config} (hwf : c.WF) (h : Binds r c) : powerOn r = .next (State.ofConfig c) := by
  rw [powerOn, check_eq_some_iff.mpr ⟨hwf, h⟩]

theorem powerOn_of_not_valid {r : RawConfig} (h : ¬RawConfig.Valid r) : powerOn r = .refused .badConfig := by
  cases hcheck : RawConfig.check r with
  | none => rw [powerOn, hcheck]
  | some c =>
    obtain ⟨hwf, hbinds⟩ := check_eq_some_iff.mp hcheck
    exact absurd (valid_of_binds hwf hbinds) h

theorem powerOn_eq_next {r : RawConfig} {t : State} (h : powerOn r = .next t) : ∃ c : Config, c.WF ∧ t = State.ofConfig c := by
  by_cases hvalid : RawConfig.Valid r
  · obtain ⟨c, hwf, hbinds⟩ := exists_binds hvalid
    rw [powerOn_of_binds hwf hbinds] at h
    cases h
    exact ⟨c, hwf, rfl⟩
  · rw [powerOn_of_not_valid hvalid] at h
    cases h

/-- Settles O45: what powers up is a reset state whose configuration keeps the premises. -/
theorem powerOnEstablishesInvariant : Obligations.PowerOnEstablishesInvariant := by
  intro r t h
  obtain ⟨c, hwf, rfl⟩ := powerOn_eq_next h
  exact .ofConfig hwf

/-- Settles O49: the premises of R231 say that there is a configuration to bind, and the check finds it. -/
theorem powerOnChecksConfiguration : Obligations.PowerOnChecksConfiguration := by
  intro r
  refine ⟨fun hvalid => ?_, powerOn_of_not_valid⟩
  obtain ⟨c, hwf, hbinds⟩ := exists_binds hvalid
  exact ⟨c, powerOn_of_binds hwf hbinds, hbinds⟩

/-- Settles O60: both runs begin with `powerOn`. -/
theorem runsStartFromCheckedConfigurations : Obligations.RunsStartFromCheckedConfigurations := by
  intro r rs
  have hrefused (h : ¬RawConfig.Valid r) : runFromReset r rs = .refused .badConfig := by
    rw [runFromReset, powerOn_of_not_valid h]
  refine ⟨fun hvalid => ?valid, hrefused, fun x hx => ?answers, fun chip as h hinvalid => ?host⟩
  case valid =>
    obtain ⟨c, hwf, hbinds⟩ := exists_binds hvalid
    have hpower := powerOn_of_binds hwf hbinds
    exact ⟨c, _, hwf, hpower, rfl, .ofConfig hwf, by rw [runFromReset, hpower]⟩
  case answers =>
    by_contra hinvalid
    rw [hrefused hinvalid] at hx
    cases hx
  case host => rw [Env.runHost, powerOn_of_not_valid hinvalid]

end Sys2Proof.Machine

/-! Proofs about 00_scope.md section 6: a run and its outputs (R15). -/

namespace Sys2Proof.Machine

theorem runOps_cons_eq_next_iff {i : Instr} {is : List Instr} {s : State} {r : Run} :
    runOps (i :: is) s = .next r ↔
      ∃ t q, exec i s = .next t ∧ runOps is t = .next q ∧ r = ⟨q.state, t.out :: q.outs⟩ := by
  cases hi : exec i s with
  | fault f => cases f
  | refused e => simp [runOps, hi]
  | next t =>
    rw [runOps_cons hi]
    cases hrest : runOps is t with
    | fault f => cases f
    | refused e => simp [afterOutput, hrest]
    | next q => simp [hrest, eq_comm]

theorem runOps_outs_length {is : List Instr} {s : State} {r : Run} (h : runOps is s = .next r) :
    r.outs.length = is.length := by
  induction is generalizing s r with
  | nil => cases h; rfl
  | cons i is ih =>
    obtain ⟨t, q, -, hrest, rfl⟩ := runOps_cons_eq_next_iff.mp h
    exact congrArg Nat.succ (ih hrest)

theorem execAll_of_runOps {is : List Instr} {s : State} {r : Run} (h : runOps is s = .next r) :
    execAll is s = .next r.state := by
  induction is generalizing s r with
  | nil => cases h; rfl
  | cons i is ih =>
    obtain ⟨t, q, hi, hrest, rfl⟩ := runOps_cons_eq_next_iff.mp h
    simp [execAll, hi, ih hrest]

/-- A tape runs as the operations its requests decode to: no operation reads what is left of it. -/
theorem runSteps_of_runOps {rs : List Request} {is : List Instr} {s : State} {r : Run} (hdecode : rs.map decode = is.map .ok)
    (h : runOps is s = .next r) : runSteps rs.length (s.setInputs rs) = .next ⟨r.state.setInputs [], r.outs⟩ := by
  induction is generalizing rs s r with
  | nil =>
    cases h
    obtain rfl : rs = [] := List.map_eq_nil_iff.mp hdecode
    rfl
  | cons i is ih =>
    obtain ⟨req, rest, rfl, hi, hrest⟩ := List.map_eq_cons_iff.mp hdecode
    obtain ⟨t, q, ht, hq, rfl⟩ := runOps_cons_eq_next_iff.mp h
    have hstep : step (s.setInputs (req :: rest)) = .next (t.setInputs rest) :=
      (step_of_decode_ok rfl hi).trans (exec_setInputs ht rest)
    rw [List.length_cons, runSteps_cons rfl hstep, ih hrest hq]
    rfl

/-- Settles O56: by induction over the operations. -/
theorem runReturnsEveryOutput : Obligations.RunReturnsEveryOutput := by
  refine ⟨fun s => rfl, fun i is s r => runOps_cons_eq_next_iff, fun rs is s r hdecode h => ?_⟩
  have hlength : rs.length = is.length := by simpa using congrArg List.length hdecode
  exact ⟨runSteps_of_runOps hdecode h, hlength ▸ runOps_outs_length h, execAll_of_runOps h⟩

end Sys2Proof.Machine

/-! Proofs about 45_main_tick_env.md and 70_reset_and_hazards.md section 3: the host's edges and operations (R218), and the loop a
hung `seek` suspends (R279). -/

namespace Sys2Proof.Machine.Env

/-! ### One action -/

theorem op_refused {i : Instr} {s : State} {x : Refusal} (h : exec i s = .refused x) : op i s = .refused x := by
  simp [op, h]

theorem andThen_refused {α β : Type} {p : Proc α} {s : State} {x : Refusal} (h : p s = .refused x) (k : α → Proc β) :
    andThen p k s = .refused x := by
  simp [andThen, h]

theorem keepsClockDuty_iff (now : Nat) (w : Surroundings) (s : State) :
    keepsClockDuty now w s = true ↔ s.rotT ≤ now ∧ ∀ last, w.lastEdge = some last → last ≤ now := by
  cases hlast : w.lastEdge <;> simp [keepsClockDuty, hlast]

/-- An edge under the duty is the one operation `ROT_EDGE` (R218). -/
theorem actEdge_of_duty {now : Nat} {w : Surroundings} {s : State} (h : keepsClockDuty now w s = true) (b : Bool) :
    actEdge now b w s = .next ⟨{ w with lastEdge := some now }, takeEdge now b s, [(takeEdge now b s).out]⟩ := by
  rw [actEdge, if_pos h]
  rfl

theorem actEdge_of_breach {now : Nat} {w : Surroundings} {s : State} (h : ¬keepsClockDuty now w s = true) (b : Bool) :
    actEdge now b w s = .refused .clockBackwards := by
  rw [actEdge, if_neg h]

theorem runCommand_of_decode {bytes : List Byte} {i : Instr} (h : decode ⟨.command, bytes⟩ = .ok i) (s : State) :
    runCommand bytes s = op i s := by
  rw [runCommand, h]

theorem act_command {chip : Chip} {bytes : List Byte} {w : Surroundings} (h : w.loop.suspended = false) :
    act chip (.command bytes) w = andThen (runCommand bytes) fun _ => ret w := by
  simp [act, h, runProcedure]

/-- Settles O59: the duty decides an edge, and a command is its operation. -/
theorem hostKeepsItsClockDuty : Obligations.HostKeepsItsClockDuty := by
  intro chip now b w s
  refine ⟨fun hbreach => ?breach, fun hT hlast => ?duty, fun bytes i hloop hi => ⟨fun t ht => ?command, fun x hx => ?refused⟩⟩
  case breach =>
    refine actEdge_of_breach (fun hduty => ?_) b
    obtain ⟨hT, hlast⟩ := (keepsClockDuty_iff now w s).mp hduty
    rcases hbreach with hlt | ⟨last, hw, hlt⟩
    · omega
    · exact absurd (hlast last hw) (Nat.not_le.mpr hlt)
  case duty =>
    exact ⟨_, _, rfl, actEdge_of_duty ((keepsClockDuty_iff now w s).mpr ⟨hT, hlast⟩) b, rfl, rfl, rfl, rfl⟩
  case command =>
    rw [act_command hloop, andThen_next ((runCommand_of_decode hi s).trans (op_next ht))]
    rfl
  case refused => rw [act_command hloop, andThen_refused ((runCommand_of_decode hi s).trans (op_refused hx))]

/-! ### The suspended loop -/

/-- From `s` with surroundings `w` to `d`, nothing happened but edges, `n` of them. -/
structure OnlyEdges (n : Nat) (w : Surroundings) (s : State) (d : Done Surroundings) : Prop where
  rdsUnit : d.state.rdsUnit = s.rdsUnit
  loop : d.value.loop = w.loop
  length : d.outs.length = n
  silent : ∀ o ∈ d.outs, o.busWrite = none ∧ o.result = none

theorem OnlyEdges.refl (w : Surroundings) (s : State) : OnlyEdges 0 w s ⟨w, s, []⟩ := ⟨rfl, rfl, rfl, by simp⟩

theorem OnlyEdges.trans {m n : Nat} {w : Surroundings} {s : State} {d e : Done Surroundings} (h : OnlyEdges m w s d)
    (h' : OnlyEdges n d.value d.state e) : OnlyEdges (m + n) w s ⟨e.value, e.state, d.outs ++ e.outs⟩ where
  rdsUnit := h'.rdsUnit.trans h.rdsUnit
  loop := h'.loop.trans h.loop
  length := by rw [List.length_append, h.length, h'.length]
  silent := fun o ho => (List.mem_append.mp ho).elim (h.silent o) (h'.silent o)

theorem takeEdge_silent (now : Nat) (b : Bool) (s : State) :
    (takeEdge now b s).out.busWrite = none ∧ (takeEdge now b s).out.result = none := by
  rw [takeEdge_out]
  exact ⟨rfl, rfl⟩

/-- While the loop is suspended an action is an edge or nothing (R279). -/
theorem act_onlyEdges {chip : Chip} {a : Action} {w : Surroundings} {s : State} {d : Done Surroundings}
    (hw : w.loop.suspended = true) (h : act chip a w s = .next d) :
    OnlyEdges ([a].filter Action.isEdge).length w s d := by
  cases ha : a.isEdge with
  | false =>
    have hret : act chip a w = ret w := by
      cases a with
      | edge now b => cases ha
      | _ => exact if_pos hw
    rw [hret] at h
    cases h
    simpa [ha] using OnlyEdges.refl w s
  | true =>
    cases a with
    | edge now b =>
      by_cases hduty : keepsClockDuty now w s = true
      · cases (actEdge_of_duty hduty b).symm.trans h
        exact ⟨takeEdge_rdsUnit now b s, rfl, rfl, fun o ho => List.mem_singleton.mp ho ▸ takeEdge_silent now b s⟩
      · cases (actEdge_of_breach hduty b).symm.trans h
    | _ => cases ha

theorem actAll_onlyEdges {chip : Chip} {as : List Action} {w : Surroundings} {s : State} {d : Done Surroundings}
    (hw : w.loop.suspended = true) (h : actAll chip as w s = .next d) :
    OnlyEdges (as.filter Action.isEdge).length w s d := by
  induction as generalizing w s d with
  | nil =>
    cases h
    exact .refl w s
  | cons a as ih =>
    obtain ⟨x, r, ha, hrest, rfl⟩ := andThen_eq_next h
    have hfirst := act_onlyEdges hw ha
    have hlater := ih (hfirst.loop ▸ hw) hrest
    rw [← List.singleton_append, List.filter_append, List.length_append]
    exact hfirst.trans hlater

/-- Settles O58: the action is the seek with its result stored in the loop; a suspended loop lets edges through and nothing else. -/
theorem hungSeekStarvesTheDecoder : Obligations.HungSeekStarvesTheDecoder := by
  refine ⟨fun chip direction place up down bus ack₁ ack₂ w s e hw hseek => ?seek, fun chip as w s d hw h => ?suspended⟩
  case seek =>
    have hact : act chip (.seek direction place up down bus ack₁ ack₂) w s = .next ⟨w.afterSeek e.value, e.state, e.outs⟩ := by
      simp [act, hw, runProcedure, andThen_next hseek]
    exact ⟨_, hact, rfl, rfl, rfl, fun hwait => decide_eq_true hwait, fun f hf => by simp [Surroundings.afterSeek, hf]⟩
  case suspended =>
    have hedges := actAll_onlyEdges hw h
    exact ⟨hedges.rdsUnit, hedges.loop, hedges.length, hedges.silent⟩

end Sys2Proof.Machine.Env

/-! Proofs about 41_tuner_control_env.md: `set_frequency` (R131, R139, R140). -/

namespace Sys2Proof.Machine.Env

/-! ### The channel of a frequency -/

/-- The clamp of a frequency on the 100 kHz grid, in tenths (R131). -/
theorem clampMhz_tenths (tenths : Int) : clampMhz ((tenths : Rat) / 10) * 10 = ((max 875 (min 1080 tenths) : Int) : Rat) := by
  have hten : (0 : Rat) ≤ 10 := by norm_num
  rw [clampMhz, max_mul_of_nonneg _ _ hten, min_mul_of_nonneg _ _ hten, div_mul_cancel₀ _ (by norm_num)]
  norm_num

theorem roundNearest_intCast (n : Int) : roundNearest (n : Rat) = n := by
  simp [roundNearest]

theorem channelOf_tenths (tenths : Int) : (channelOf ((tenths : Rat) / 10) : Int) = max 875 (min 1080 tenths) - 875 := by
  rw [channelOf, clampMhz_tenths, roundNearest_intCast]
  omega

/-! ### The shadow of a retune -/

/-- The shadow `set_frequency` commits first, of the refreshed shadow `sh`: channel and tune bit set (R131). -/
def tuneShadow (chip : Chip) (mhz : Rat) (sh : Vector Word 16) : Vector Word 16 :=
  sh.set (writeReg chip.regChan)
    (withBit (withLow9 sh[writeReg chip.regChan] (BitVec.ofNat 9 (channelOf mhz))) chip.bitTune true)

/-- The shadow it commits second: the tune bit clear again (R131). -/
def tunedShadow (chip : Chip) (mhz : Rat) (sh : Vector Word 16) : Vector Word 16 :=
  (tuneShadow chip mhz sh).set (writeReg chip.regChan)
    (withBit (tuneShadow chip mhz sh)[writeReg chip.regChan] chip.bitTune false)

theorem tuneShadow_chan (chip : Chip) (mhz : Rat) (sh : Vector Word 16) :
    (tuneShadow chip mhz sh)[writeReg chip.regChan] =
      withBit (withLow9 sh[writeReg chip.regChan] (BitVec.ofNat 9 (channelOf mhz))) chip.bitTune true := by
  simp [tuneShadow]

theorem tunedShadow_chan (chip : Chip) (mhz : Rat) (sh : Vector Word 16) :
    (tunedShadow chip mhz sh)[writeReg chip.regChan] =
      withBit (tuneShadow chip mhz sh)[writeReg chip.regChan] chip.bitTune false := by
  simp [tunedShadow]

theorem tuneShadow_other (chip : Chip) (mhz : Rat) (sh : Vector Word 16) {q : Fin 16} (h : q ≠ writeReg chip.regChan) :
    (tuneShadow chip mhz sh)[q] = sh[q] := by
  have hval : (writeReg chip.regChan).val ≠ q.val := fun e => h (Fin.ext e.symm)
  simp [tuneShadow, Vector.getElem_set_ne, hval]

theorem tunedShadow_other (chip : Chip) (mhz : Rat) (sh : Vector Word 16) {q : Fin 16} (h : q ≠ writeReg chip.regChan) :
    (tunedShadow chip mhz sh)[q] = (tuneShadow chip mhz sh)[q] := by
  have hval : (writeReg chip.regChan).val ≠ q.val := fun e => h (Fin.ext e.symm)
  simp [tunedShadow, Vector.getElem_set_ne, hval]

/-- The channel word bit by bit: tune bit clear, channel below, the refreshed word above (R131). -/
theorem tunedShadow_chan_getLsbD (chip : Chip) (mhz : Rat) (sh : Vector Word 16) (k : Nat) :
    (tunedShadow chip mhz sh)[writeReg chip.regChan].getLsbD k =
      if k = chip.bitTune.val then false
      else if k < 9 then (BitVec.ofNat 9 (channelOf mhz)).getLsbD k else sh[writeReg chip.regChan].getLsbD k := by
  rw [tunedShadow_chan, tuneShadow_chan, withBit_getLsbD, withBit_getLsbD, withLow9_getLsbD]
  split <;> rfl

/-- Setting the tune bit again gives the word committed first. -/
theorem tuneShadow_chan_eq_or (chip : Chip) (mhz : Rat) (sh : Vector Word 16) :
    (tuneShadow chip mhz sh)[writeReg chip.regChan] =
      (tunedShadow chip mhz sh)[writeReg chip.regChan] ||| BitVec.twoPow 16 chip.bitTune.val := by
  change _ = withBit _ chip.bitTune true
  apply BitVec.eq_of_getLsbD_eq
  intro k _
  rw [tunedShadow_chan, tuneShadow_chan, withBit_getLsbD, withBit_getLsbD, withBit_getLsbD, withBit_getLsbD]
  split <;> rfl

/-- The low nine bits are those below bit 9 (R131). -/
theorem and_lowNine_congr {x y : Word} (h : ∀ k, k < 9 → x.getLsbD k = y.getLsbD k) : x &&& 0x1FF = y &&& 0x1FF := by
  have hmask : ∀ k, k < 16 → (0x1FF : Word).getLsbD k = decide (k < 9) := by decide
  apply BitVec.eq_of_getLsbD_eq
  intro k hk
  rw [BitVec.getLsbD_and, BitVec.getLsbD_and, hmask k hk]
  by_cases hlow : k < 9
  · rw [h k hlow]
  · simp [hlow]

/-- The low nine bits of the channel word are the channel, when the tune bit stands above them (R131). -/
theorem tunedShadow_chan_low {chip : Chip} (htune : 9 ≤ chip.bitTune.val) (mhz : Rat) (sh : Vector Word 16) :
    (tunedShadow chip mhz sh)[writeReg chip.regChan] &&& 0x1FF = (BitVec.ofNat 9 (channelOf mhz)).setWidth 16 := by
  rw [← withLow9_and sh[writeReg chip.regChan]]
  refine and_lowNine_congr fun k hk => ?_
  have hne : k ≠ chip.bitTune.val := by omega
  rw [tunedShadow_chan_getLsbD, withLow9_getLsbD, if_neg hne, if_pos hk]

theorem tunedShadow_chan_tenths {chip : Chip} (htune : 9 ≤ chip.bitTune.val) (tenths : Int) (sh : Vector Word 16) :
    (((tunedShadow chip ((tenths : Rat) / 10) sh)[writeReg chip.regChan] &&& 0x1FF).toNat : Int) =
      max 875 (min 1080 tenths) - 875 := by
  have hchannel := channelOf_tenths tenths
  rw [tunedShadow_chan_low htune, BitVec.toNat_setWidth, BitVec.toNat_ofNat]
  omega

theorem afterOuts_afterOuts {β : Type} (os os' : List Output) (r : Host.Outcome (Done β) Fault Refusal) :
    afterOuts os (afterOuts os' r) = afterOuts (os ++ os') r := by
  cases r <;> simp [afterOuts]

/-- Changing a register and committing: one write block is sent, that of the changed shadow (R113, R116). -/
theorem modifyReg_commit_next {β : Type} (r : Fin 16) (f : Word → Word) (ack : WriteAnswer) (k : Proc β) (s : State) :
    ∃ (outs : List Output) (o : Output),
      outs.filterMap (fun o => o.busWrite) = [commitBytes (s.sh.set r (f s.sh[r]))] ∧
      andThen (modifyReg r f) (fun _ => andThen (commit ack) fun _ => k) s =
        afterOuts outs (k ((s.setSh (s.sh.set r (f s.sh[r]))).setOut o)) := by
  obtain ⟨o, hburst, -, hcommit⟩ := commit_next ack ((s.setSh (s.sh.set r (f s.sh[r]))).setOut {})
  refine ⟨[{ result := some (.word s.sh[r]) }, {}, o], o, by simp [hburst], ?_⟩
  rw [andThen_next (modifyReg_next r f s), andThen_next hcommit, afterOuts_afterOuts]
  rfl

/-- `set_frequency` after a refresh that completed in `u` and sent nothing: the two write blocks, then a retune reset (R131). -/
theorem setFrequency_next (chip : Chip) (mhz : Rat) {bus : BusAnswer} (ack₁ ack₂ : WriteAnswer) {s u : State}
    (hu : exec (.shRefresh bus) s = .next u) (hsilent : u.out.busWrite = none) :
    ∃ outs : List Output,
      outs.filterMap (fun o => o.busWrite) =
        [commitBytes (tuneShadow chip mhz u.sh), commitBytes (tunedShadow chip mhz u.sh)] ∧
      setFrequency chip mhz bus ack₁ ack₂ s =
        .next ⟨(), (blankAccumulator .retune (u.setSh (tunedShadow chip mhz u.sh))).setOut {}, outs⟩ := by
  obtain ⟨notes, hnotes, hnote⟩ := note_next (clampEvents (clampMhz mhz = mhz)) s
  rw [setFrequency, andThen_next hnote, andThen_next (op_next hu)]
  obtain ⟨outs₁, o₁, hbursts₁, hset₁⟩ := modifyReg_commit_next (writeReg chip.regChan)
    (fun x => withBit (withLow9 x (BitVec.ofNat 9 (channelOf mhz))) chip.bitTune true) ack₁
    (andThen (modifyReg (writeReg chip.regChan) fun y => withBit y chip.bitTune false) fun _ =>
      andThen (commit ack₂) fun _ => op (.rdsReset .retune)) u
  obtain ⟨outs₂, o₂, hbursts₂, hset₂⟩ := modifyReg_commit_next (writeReg chip.regChan)
    (fun y => withBit y chip.bitTune false) ack₂ (op (.rdsReset .retune)) ((u.setSh (tuneShadow chip mhz u.sh)).setOut o₁)
  refine ⟨notes ++ (u.out :: outs₁ ++ (outs₂ ++ [({} : Output)])), ?bursts, ?final⟩
  case bursts =>
    simp only [List.filterMap_append, List.filterMap_cons, List.filterMap_nil, hnotes, hsilent, hbursts₁, hbursts₂]
    rfl
  case final =>
    rw [hset₁, ← tuneShadow, hset₂, op_next rfl, afterOuts_afterOuts, afterOuts_afterOuts, afterOuts_afterOuts,
      afterOuts_next]
    simp only [List.append_assoc, List.cons_append]
    rfl

end Sys2Proof.Machine.Env

namespace Sys2Proof.Machine

/-- Settles O55: after the refresh, `set_frequency` is two changes of the channel word, each committed, and a retune reset. -/
theorem setFrequencyStoresChannelAndResets : Obligations.SetFrequencyStoresChannelAndResets := by
  intro chip tenths bus ack₁ ack₂ s hwf htune
  obtain ⟨words, ev, hu⟩ := execShRefresh_next_of_wf hwf s
  obtain ⟨outs, hbursts, hset⟩ := Env.setFrequency_next chip ((tenths : Rat) / 10) ack₁ ack₂ hu rfl
  refine ⟨_, _, _, hu, hset, rfl, ?low, ?tune, ?high, ?others,
    ⟨_, hbursts, Env.tuneShadow_chan_eq_or _ _ _, fun q hq => (Env.tunedShadow_other chip _ _ hq).symm⟩, rfl, rfl⟩
  case low => exact Env.tunedShadow_chan_tenths htune tenths _
  case tune => exact (Env.tunedShadow_chan_getLsbD _ _ _ _).trans (if_pos rfl)
  case high =>
    exact fun k hk hne => (Env.tunedShadow_chan_getLsbD _ _ _ _).trans ((if_neg hne).trans (if_neg (Nat.not_lt.mpr hk)))
  case others => exact fun q hq => (Env.tunedShadow_other chip _ _ hq).trans (Env.tuneShadow_other chip _ _ hq)
end Sys2Proof.Machine


/-! Proofs about 41_tuner_control_env.md: `seek` (R135, R140). -/

namespace Sys2Proof.Machine.Env

/-! ### What a part of `seek` leaves behind -/

/-- From `s` to `d` a procedure kept the rotary cells and the parameters, issued a seek reset if `resets` holds and left the
accumulator else, and sent just the bursts `bursts`. -/
structure Trail {α : Type} (resets : Bool) (bursts : List (List Byte)) (s : State) (d : Done α) : Prop where
  rotUnit : d.state.rotUnit = s.rotUnit
  cfg : d.state.cfg = s.cfg
  accumulator : d.state.accumulator = if resets then (blankAccumulator .seek s).accumulator else s.accumulator
  writes : d.outs.filterMap (fun o => o.busWrite) = bursts

/-- A procedure without a reset and without a burst. -/
def Quiet {α : Type} (p : Proc α) : Prop := ∀ s d, p s = .next d → Trail false [] s d

theorem Quiet.trail {α : Type} {p : Proc α} (hp : Quiet p) {s : State} {d : Done α} (h : p s = .next d) :
    Trail false [] s d := hp s d h

theorem blankAccumulator_accumulator_congr {s t : State} (h : t.cfg = s.cfg) (cause : Cause) :
    (blankAccumulator cause t).accumulator = (blankAccumulator cause s).accumulator := by
  simp [blankAccumulator, State.accumulator, h]

theorem Trail.append {α β : Type} {b b' : Bool} {ws ws' : List (List Byte)} {s : State} {d : Done α} {r : Done β}
    (h : Trail b ws s d) (h' : Trail b' ws' d.state r) :
    Trail (b || b') (ws ++ ws') s (⟨r.value, r.state, d.outs ++ r.outs⟩ : Done β) where
  rotUnit := h'.rotUnit.trans h.rotUnit
  cfg := h'.cfg.trans h.cfg
  accumulator := by
    rw [h'.accumulator, blankAccumulator_accumulator_congr h.cfg, h.accumulator]
    cases b <;> cases b' <;> rfl
  writes := by rw [List.filterMap_append, h.writes, h'.writes]

theorem quiet_ret {α : Type} (a : α) : Quiet (ret a) := by
  rintro s d h
  cases h
  exact ⟨rfl, rfl, rfl, rfl⟩

theorem quiet_andThen {α β : Type} {p : Proc α} {k : α → Proc β} (hp : Quiet p) (hk : ∀ a, Quiet (k a)) :
    Quiet (andThen p k) := by
  intro s e h
  obtain ⟨d, r, hd, hr, rfl⟩ := andThen_eq_next h
  exact (hp.trail hd).append ((hk d.value).trail hr)

theorem quiet_note (ev : List Event) : Quiet (note ev) := by
  intro s d h
  obtain ⟨notes, hnotes, hnote⟩ := note_next ev s
  cases hnote.symm.trans h
  exact ⟨rfl, rfl, rfl, hnotes⟩

theorem quiet_look {α : Type} (f : State → α) : Quiet (look f) := by
  intro s d h
  cases h
  exact ⟨rfl, rfl, rfl, rfl⟩

theorem quiet_refresh (bus : BusAnswer) : Quiet (op (.shRefresh bus)) := by
  intro s d h
  obtain ⟨hexec, houts⟩ := op_eq_next h
  obtain ⟨-, hstate⟩ := exec_eq_next_iff.mp hexec
  rw [hstate] at houts
  refine ⟨?_, ?_, ?_, by rw [houts]; rfl⟩ <;> rw [hstate]
  · exact refreshed_rotUnit bus s
  · exact refreshed_cfg bus s
  · exact refreshed_accumulator bus s

theorem quiet_getReg (r : Fin 16) : Quiet (getReg r) := by
  intro s d h
  cases (getReg_next r s).symm.trans h
  exact ⟨rfl, rfl, rfl, rfl⟩

theorem quiet_modifyReg (r : Fin 16) (f : Word → Word) : Quiet (modifyReg r f) := by
  intro s d h
  cases (modifyReg_next r f s).symm.trans h
  exact ⟨rfl, rfl, rfl, rfl⟩

theorem quiet_poll (chip : Chip) (awaited : Bool) (answers : List BusAnswer) : Quiet (poll chip awaited answers) := by
  induction answers with
  | nil => exact quiet_ret false
  | cons bus rest ih =>
    refine quiet_andThen (quiet_refresh bus) fun _ => quiet_andThen (quiet_look _) fun r =>
      quiet_andThen (quiet_getReg r) fun x => ?_
    split
    · exact quiet_ret true
    · exact ih

theorem quiet_getFrequency (chip : Chip) (bus : BusAnswer) (tuner : Tuner) : Quiet (getFrequency chip bus tuner) :=
  quiet_andThen (quiet_refresh bus) fun _ => quiet_andThen (quiet_getReg chip.regReadchan) fun _ => quiet_ret _

theorem resetAt_trail {place here : ResetPlace} {s : State} {d : Done Unit} (h : resetAt place here s = .next d) :
    Trail (decide (place = here)) [] s d := by
  by_cases hplace : place = here
  · rw [resetAt, if_pos hplace] at h
    cases h
    rw [decide_eq_true hplace]
    exact ⟨rfl, rfl, rfl, rfl⟩
  · rw [resetAt, if_neg hplace] at h
    rw [decide_eq_false hplace]
    exact (quiet_ret ()).trail h

theorem commit_trail {ack : WriteAnswer} {s : State} {d : Done Unit} (h : commit ack s = .next d) :
    Trail false [commitBytes s.sh] s d := by
  obtain ⟨o, hburst, -, hcommit⟩ := commit_next ack s
  cases hcommit.symm.trans h
  exact ⟨rfl, rfl, rfl, by simp [hburst]⟩

/-- The word that was changed stands in the shadow. -/
theorem modifyReg_sh {r : Fin 16} {f : Word → Word} {s : State} {d : Done Word} (h : modifyReg r f s = .next d) :
    d.state.sh[r] = f s.sh[r] := by
  cases (modifyReg_next r f s).symm.trans h
  simp

/-! ### How a seek ends -/

/-- A part of `seek` that began at `s` ended in `d` still waiting: the TunerState is `tuner`, the event E7 is recorded (log 22). -/
def Waits (tuner : Tuner) (s : State) (d : Done (Seek × Tuner)) : Prop :=
  d.value = (.waiting, tuner) ∧ (∃ o ∈ d.outs, Event.seekNoResponse ∈ o.events) ∧ ∃ resets bursts, Trail resets bursts s d

theorem Trail.append_waits {α : Type} {b : Bool} {ws : List (List Byte)} {tuner : Tuner} {s : State} {d : Done α}
    {r : Done (Seek × Tuner)} (h : Trail b ws s d) (h' : Waits tuner d.state r) :
    Waits tuner s ⟨r.value, r.state, d.outs ++ r.outs⟩ := by
  obtain ⟨hvalue, ⟨o, ho, hevent⟩, b', ws', htrail⟩ := h'
  exact ⟨hvalue, ⟨o, List.mem_append_right _ ho, hevent⟩, _, _, h.append htrail⟩

theorem noResponse_waits {tuner : Tuner} {s : State} {d : Done (Seek × Tuner)} (h : noResponse tuner s = .next d) :
    Waits tuner s d := by
  have hquiet : Quiet (noResponse tuner) := quiet_andThen (quiet_note _) fun _ => quiet_ret _
  refine ⟨?_, ?_, _, _, hquiet.trail h⟩ <;> cases h
  · rfl
  · exact ⟨_, List.mem_singleton_self _, List.mem_singleton_self _⟩

/-- What follows the first loop ends waiting, or at a frequency with one burst sent, the enable bit clear in it, and a reset if its
place is in this part (R135, R140). -/
theorem seekDone_ends {chip : Chip} {place : ResetPlace} {down : List BusAnswer} {bus : BusAnswer} {ack : WriteAnswer}
    {tuner : Tuner} {s : State} {d : Done (Seek × Tuner)} (h : seekDone chip place down bus ack tuner s = .next d) :
    Waits tuner s d ∨
    ∃ (f : Rat) (n : Vector Word 16), d.value.1 = .found f ∧ n[writeReg chip.regPwr].getLsbD chip.bitSeekEn.val = false ∧
      Trail (decide (place = .afterComplete) || (decide (place = .afterDisable) || (decide (place = .afterRelease) ||
        decide (place = .atEnd)))) [commitBytes n] s d := by
  obtain ⟨d₁, e₁, hreset₁, h₁, rfl⟩ := andThen_eq_next h
  obtain ⟨d₂, e₂, hdisable, h₂, rfl⟩ := andThen_eq_next h₁
  obtain ⟨d₃, e₃, hcommit, h₃, rfl⟩ := andThen_eq_next h₂
  obtain ⟨d₄, e₄, hreset₂, h₄, rfl⟩ := andThen_eq_next h₃
  obtain ⟨d₅, e₅, hpoll, h₅, rfl⟩ := andThen_eq_next h₄
  have t₁ := resetAt_trail hreset₁
  have t₂ := (quiet_modifyReg _ _).trail hdisable
  have t₃ := commit_trail hcommit
  have t₄ := resetAt_trail hreset₂
  have t₅ := (quiet_poll _ _ _).trail hpoll
  split at h₅
  · obtain ⟨d₆, e₆, hreset₃, h₆, rfl⟩ := andThen_eq_next h₅
    obtain ⟨d₇, e₇, hfrequency, h₇, rfl⟩ := andThen_eq_next h₆
    obtain ⟨d₈, e₈, hreset₄, h₈, rfl⟩ := andThen_eq_next h₇
    have t₆ := resetAt_trail hreset₃
    have t₇ := (quiet_getFrequency _ _ _).trail hfrequency
    have t₈ := resetAt_trail hreset₄
    have t₉ := (quiet_ret _).trail h₈
    have htrail := t₁.append (t₂.append (t₃.append (t₄.append (t₅.append (t₆.append (t₇.append (t₈.append t₉)))))))
    cases h₈
    refine .inr ⟨d₇.value.1, d₂.state.sh, rfl, ?_, ?_⟩
    · rw [modifyReg_sh hdisable, withBit_getLsbD, if_pos rfl]
    · simpa only [Bool.or_false, Bool.false_or, List.nil_append, List.append_nil] using htrail
  · exact .inl (t₁.append_waits (t₂.append_waits (t₃.append_waits (t₄.append_waits (t₅.append_waits (noResponse_waits h₅))))))

/-- A `seek` ends waiting, or at a frequency with two bursts sent and one seek reset, wherever it stands (R135, R140, U27). -/
theorem seek_ends {chip : Chip} {direction : Int} {place : ResetPlace} {up down : List BusAnswer} {bus : BusAnswer}
    {ack₁ ack₂ : WriteAnswer} {tuner : Tuner} {s : State} {d : Done (Seek × Tuner)}
    (h : seek chip direction place up down bus ack₁ ack₂ tuner s = .next d) :
    Waits tuner s d ∨
    ∃ (f : Rat) (m n : Vector Word 16), d.value.1 = .found f ∧
      m[writeReg chip.regPwr].getLsbD chip.bitSeekEn.val = true ∧
      n[writeReg chip.regPwr].getLsbD chip.bitSeekEn.val = false ∧ Trail true [commitBytes m, commitBytes n] s d := by
  obtain ⟨d₀, e₀, hnote, h₀, rfl⟩ := andThen_eq_next h
  obtain ⟨d₁, e₁, hreset₁, h₁, rfl⟩ := andThen_eq_next h₀
  obtain ⟨d₂, e₂, henable, h₂, rfl⟩ := andThen_eq_next h₁
  obtain ⟨d₃, e₃, hcommit, h₃, rfl⟩ := andThen_eq_next h₂
  obtain ⟨d₄, e₄, hreset₂, h₄, rfl⟩ := andThen_eq_next h₃
  obtain ⟨d₅, e₅, hpoll, h₅, rfl⟩ := andThen_eq_next h₄
  have t₀ := (quiet_note _).trail hnote
  have t₁ := resetAt_trail hreset₁
  have t₂ := (quiet_modifyReg _ _).trail henable
  have t₃ := commit_trail hcommit
  have t₄ := resetAt_trail hreset₂
  have t₅ := (quiet_poll _ _ _).trail hpoll
  have prepend {r} (hw : Waits tuner d₅.state r) := t₀.append_waits (t₁.append_waits (t₂.append_waits (t₃.append_waits
    (t₄.append_waits (t₅.append_waits hw)))))
  split at h₅
  · rcases seekDone_ends h₅ with hwaits | ⟨f, n, hfound, hclear, t₆⟩
    · exact .inl (prepend hwaits)
    · refine .inr ⟨f, d₂.state.sh, n, hfound, ?_, hclear, ?_⟩
      · rw [modifyReg_sh henable, withBit_getLsbD, if_pos rfl]
      · have htrail := t₀.append (t₁.append (t₂.append (t₃.append (t₄.append (t₅.append t₆)))))
        have hreset : (decide (place = .atStart) || (decide (place = .afterEnable) || (decide (place = .afterComplete) ||
            (decide (place = .afterDisable) || (decide (place = .afterRelease) || decide (place = .atEnd)))))) = true := by
          cases place <;> rfl
        simpa only [Bool.false_or, hreset, List.nil_append, List.singleton_append] using htrail
  · exact .inl (prepend (noResponse_waits h₅))

end Sys2Proof.Machine.Env

namespace Sys2Proof.Machine

/-- Settles O57: both ends of a seek keep the rotary cells; at a frequency the reset was issued once, waiting at most once. -/
theorem seekSetsThenClearsEnable : Obligations.SeekSetsThenClearsEnable := by
  intro chip direction place up down bus ack₁ ack₂ tuner s r d hseek hreset
  cases hreset
  rcases Env.seek_ends hseek with ⟨hvalue, hevent, resets, bursts, htrail⟩ | ⟨f, m, n, hfound, hset, hclear, htrail⟩
  · refine ⟨htrail.rotUnit, fun f hf => ?_, fun _ => ⟨by rw [hvalue], hevent, ?_⟩⟩
    · rw [hvalue] at hf
      cases hf
    · cases resets
      · exact .inl htrail.accumulator
      · exact .inr htrail.accumulator
  · refine ⟨htrail.rotUnit, fun _ _ => ⟨htrail.accumulator, m, n, htrail.writes, hset, hclear⟩, fun hwait => ?_⟩
    rw [hfound] at hwait
    cases hwait

end Sys2Proof.Machine
